-- ==== Sys2Proof/Word.lean ====
section
/-! DEFINITION. The words of the core: bytes, the program counter's word and the three bytes one step latches
(00_scope.md R5, R7, R8; 10_state.md R25, R28). -/

namespace Sys2Proof

/-- A register, a memory cell, an operand byte, an output value: unsigned, 0..255 (R8, R20, R40). -/
abbrev Byte := BitVec 8

/-- The program counter and `fault_info`: unsigned, 9 bits (R25, R27). -/
abbrev PcWord := BitVec 9

/-- The instruction latch `(op, opA, opB)`: the bytes at pc, pc+1 and pc+2 (R28, R81). -/
structure Latch where
  op : Byte
  a  : Byte
  b  : Byte
  deriving DecidableEq, Repr

end Sys2Proof
end

