-- ==== Sys2Proof/Syntax.lean ====
section
/-! DEFINITION. The nine instructions (00_scope.md R2; 30_encoding.md R64), one constructor per row of the opcode
table, in the table's order. An operand is a whole byte, used unmodified (R66): a register-index operand may hold any
byte, since the spec gives the values 8..255 an effect of their own (a fault, R24). Bytes an instruction does not use
(R67) are no part of it. -/

namespace Sys2Proof

inductive Instr where
  /-- LDI: load the immediate byte `imm` into register `a` (R101). -/
  | ldi (a imm : Byte)
  /-- PRN: put register `a` on the output port (R103). -/
  | prn (a : Byte)
  /-- HLT: halt (R106). -/
  | hlt
  /-- POP: pop the top stack byte into register `a` (R124). -/
  | pop (a : Byte)
  /-- PUSH: push register `a` (R125). -/
  | push (a : Byte)
  /-- ADD: register `a` plus register `b`, into `a` (R142). -/
  | add (a b : Byte)
  /-- SUB: register `a` minus register `b`, into `a` (R143). -/
  | sub (a b : Byte)
  /-- MUL: register `a` times register `b`, low byte, into `a` (R144). -/
  | mul (a b : Byte)
  /-- DIV: register `a` divided by register `b`, into `a` (R145). -/
  | div (a b : Byte)
  deriving DecidableEq, Repr

end Sys2Proof
end

