-- ==== Sys2Proof/Decode.lean ====
section
/-! DEFINITION. The instruction decoder and the encoder (30_encoding.md). Decoding is total on any three latched
bytes: it gives one of the nine instructions, or names the byte as an unknown opcode (R65, R68). -/

namespace Sys2Proof

/-! ### The opcode bytes (R64) -/

def Opcode.ldi  : Byte := 0x82
def Opcode.prn  : Byte := 0x47
def Opcode.hlt  : Byte := 0x01
def Opcode.pop  : Byte := 0x46
def Opcode.push : Byte := 0x45
def Opcode.add  : Byte := 0xA0
def Opcode.sub  : Byte := 0xA1
def Opcode.mul  : Byte := 0xA2
def Opcode.div  : Byte := 0xA3

/-! ### The decoder's three outputs (R65) -/

/-- `width(op) = (op >> 6) + 1`, in bytes (R61). -/
def opWidth (op : Byte) : Nat := (op >>> 6).toNat + 1

/-- `alu(op) = (op >> 5) & 1` (R62): a decode attribute, no status flag. -/
def aluFlag (op : Byte) : Bool := (op >>> 5) &&& 1 == 1

/-- The mnemonic the exact opcode byte selects, or UNKNOWN (R63, R65). -/
inductive Kind where
  | ldi | prn | hlt | pop | push | add | sub | mul | div | unknown
  deriving DecidableEq, Repr

/-- `kind(op)`: all eight bits are matched against the table of R64. -/
def kindOf (op : Byte) : Kind :=
  if op = Opcode.ldi then .ldi
  else if op = Opcode.prn then .prn
  else if op = Opcode.hlt then .hlt
  else if op = Opcode.pop then .pop
  else if op = Opcode.push then .push
  else if op = Opcode.add then .add
  else if op = Opcode.sub then .sub
  else if op = Opcode.mul then .mul
  else if op = Opcode.div then .div
  else .unknown

/-- What a latched instruction is: one of the nine, or an unknown opcode, named by its byte. -/
inductive Decoded where
  | instr (i : Instr)
  | unknown (op : Byte)
  deriving DecidableEq, Repr

/-- Decode the three latched bytes. Operand A is the second and operand B the third (R60); an operand the
instruction does not use is dropped unchecked (R67). -/
def decode (l : Latch) : Decoded :=
  match kindOf l.op with
  | .ldi     => .instr (.ldi l.a l.b)
  | .prn     => .instr (.prn l.a)
  | .hlt     => .instr .hlt
  | .pop     => .instr (.pop l.a)
  | .push    => .instr (.push l.a)
  | .add     => .instr (.add l.a l.b)
  | .sub     => .instr (.sub l.a l.b)
  | .mul     => .instr (.mul l.a l.b)
  | .div     => .instr (.div l.a l.b)
  | .unknown => .unknown l.op

/-- The instruction decoded, if the opcode is known. -/
def Decoded.instr? : Decoded → Option Instr
  | .instr i   => some i
  | .unknown _ => none

/-- The latch that holds the first three of a list of bytes; a missing byte reads as 0. -/
def latchOf (bytes : List Byte) : Latch := ⟨bytes.getD 0 0, bytes.getD 1 0, bytes.getD 2 0⟩

/-! ### The encoder (R64, R72): the opcode byte, then the operand bytes in the order written -/

/-- The opcode byte of an instruction. -/
def Instr.opcode : Instr → Byte
  | .ldi _ _ => Opcode.ldi
  | .prn _   => Opcode.prn
  | .hlt     => Opcode.hlt
  | .pop _   => Opcode.pop
  | .push _  => Opcode.push
  | .add _ _ => Opcode.add
  | .sub _ _ => Opcode.sub
  | .mul _ _ => Opcode.mul
  | .div _ _ => Opcode.div

/-- The operand bytes an instruction uses, in the order written. -/
def Instr.operands : Instr → List Byte
  | .ldi a imm => [a, imm]
  | .prn a     => [a]
  | .hlt       => []
  | .pop a     => [a]
  | .push a    => [a]
  | .add a b   => [a, b]
  | .sub a b   => [a, b]
  | .mul a b   => [a, b]
  | .div a b   => [a, b]

/-- The bytes of an instruction, at ascending addresses (R45, R60). -/
def encode (i : Instr) : List Byte := i.opcode :: i.operands

/-- The width of an instruction, in bytes (R61). -/
def Instr.width (i : Instr) : Nat := opWidth i.opcode

/-! ### The opcode table's numbering of an instruction's bits -/

/-- The latch of the instruction whose bits are `w`: byte k of the instruction is bits 8k+7..8k, and every bit from
`nbits` up is 0. -/
def latchOfTableWord (nbits w : Nat) : Latch :=
  let v := w % 2 ^ nbits
  ⟨BitVec.ofNat 8 v, BitVec.ofNat 8 (v / 2 ^ 8), BitVec.ofNat 8 (v / 2 ^ 16)⟩

/-- The instruction the decoder reads from an instruction's bits, or `none` for an unknown opcode. -/
def decodeTableWord (nbits w : Nat) : Option Instr := (decode (latchOfTableWord nbits w)).instr?

end Sys2Proof
end

