-- ==== Sys2Proof/Config.lean ====
section
/-! DEFINITION. The implementation parameters of 00_scope.md R5, and the free values: what the spec leaves
unspecified while the machine goes on. A free value is an opaque constant, so nothing can be proved about it. -/

namespace Sys2Proof.Config

/-- `MEM_SIZE`, the number of memory cells (R5, R40). -/
abbrev memSize : Nat := 256

/-- `ADDR_MAX`, the highest cell address (R5). -/
abbrev addrMax : Nat := 255

/-- `NREGS`, the number of registers (R5, R20). -/
abbrev nregs : Nat := 8

/-- `SP_INDEX`, the register that is the stack pointer (R5, R22). -/
abbrev spIndex : Fin 8 := 7

/-- `SP_RESET` (R5, R35). -/
def spReset : Byte := 0xF4

/-- `PC_RESET` (R5, R35, R182). -/
def pcReset : PcWord := 0

/-- FREE VALUE (log 1). What the instruction latch holds between steps, which R28 and I8 leave unspecified: one
value for each step that ran, numbered by `State.draws`. -/
opaque latchBetweenSteps : Nat → Byte × Byte × Byte

/-- FREE VALUE (log 5). What the inspection port shows while the core is Running, which R185 and I9 leave
unspecified: one value for each read, numbered by the reader. -/
opaque hstDataWhileRunning : Nat → Byte

/-- FREE VALUE (log 7). Whether a load strobe on the very clock edge on which `rst` rises is honoured: R180 says
that every cell becomes 0 when `rst` rises and that the load port is enabled while `rst` is 1. -/
opaque loadOnRisingEdge : Bool

end Sys2Proof.Config
end

