-- ==== Sys2Proof/Machine/State.lean ====
section
/-! DEFINITION. The state of the core (10_state.md), its reset value (R35, R180), and the reasons a step can end
without a next state. -/

namespace Sys2Proof.Machine

/-- The three run states (R26). -/
inductive RunState where
  | running | halted | faulted
  deriving DecidableEq, Repr

/-- The fault codes that have a name (R160). `noFault` is the code None; `unsupportedOperation` is listed by R160 and
never raised (R166). -/
inductive FaultCode where
  | noFault | outOfRangeMemory | outOfRangeRegister | divideByZero | unsupportedOperation
  deriving DecidableEq, Repr

/-- What an instruction or the fetch can raise (R9, R161), with what its info is made from: the address, the operand
byte, the divisor's register index. -/
inductive Trap where
  | outOfRangeMemory (addr : Nat)
  | outOfRangeRegister (operand : Byte)
  | divideByZero (divisor : Byte)
  deriving DecidableEq, Repr

/-- One entry of the diagnostic sequence: an unknown opcode and its address (R34, R86; widths R184). -/
structure DiagEntry where
  opcode : Byte
  addr   : Byte
  deriving DecidableEq, Repr

/-- Memory as the cells that do not hold 0, by rising address; the canonical form is `Memory.wf`
(Machine/Ops.lean). -/
abbrev Memory := List Host.Cell

structure State where
  /-- R0..R7; R7 is the stack pointer (R20, R22). -/
  regs      : Vector Byte 8
  /-- The program counter (R25). -/
  pc        : PcWord
  /-- M[0..255] (R32, R40). -/
  mem       : Memory
  /-- The run state (R26). -/
  runState  : RunState
  /-- The fault status (R27). -/
  faultCode : FaultCode
  faultInfo : PcWord
  /-- The instruction latch (R28). The fetch writes it and decoding reads it; between steps it holds a free value
  (log 1). -/
  latch     : Latch
  /-- The bytes PRN has emitted since reset, oldest first (R33). -/
  out       : List Byte
  /-- The unknown opcodes reported since reset, oldest first (R34). -/
  diag      : List DiagEntry
  /-- THE MODEL'S OWN, not the spec's: how many free latch values have been drawn (log 1). -/
  draws     : Nat
  deriving DecidableEq, Repr

/-- The state right after reset with no image loaded (R35, R180). The latch is a DESIGN CHOICE (log 2): the spec
leaves it unspecified. `draws` is the model's own (log 1). -/
def State.reset : State where
  regs      := #v[0, 0, 0, 0, 0, 0, 0, Config.spReset]
  pc        := Config.pcReset
  mem       := []
  runState  := .running
  faultCode := .noFault
  faultInfo := 0
  latch     := ⟨0, 0, 0⟩
  out       := []
  diag      := []
  draws     := 0

/-- The reasons a step stops with a fault: NONE. Every fault the spec gives this machine is a state it enters (R162),
so it is a next state, and nobody raises an outcome `fault` (log 4; neither safe nor unsafe, since there is none). -/
inductive Fault where
  deriving DecidableEq, Repr

/-- The reasons an instruction has no meaning in the model. -/
inductive Refusal where
  /-- The instruction, named by its mnemonic, is not modelled yet. Raised by `exec`'s refused arms, of which there are
  none left: safe. -/
  | notModelled (mnemonic : String)
  deriving DecidableEq, Repr

/-- What a step or a meaning answers. -/
abbrev Result := Host.Outcome State Fault Refusal

end Sys2Proof.Machine
end

