-- ==== Sys2Proof/Machine/Flags.lean ====
section
/-! DEFINITION. What the ALU computes (43_alu.md R140, R146). THE CORE HAS NO FLAGS: no instruction sets or reads one,
no carry, borrow or overflow is kept (10_state.md R29, 43_alu.md R146), so beside the results there is nothing here to
compute. -/

namespace Sys2Proof.Machine

/-- The four operations of the ALU (R140). -/
inductive AluOp where
  | add | sub | mul | div
  deriving DecidableEq, Repr

/-- The operation the selector selects; the selector is the opcode (R140). No other opcode reaches the ALU (R69). -/
def aluSelect (op : Byte) : Option AluOp :=
  if op = Opcode.add then some .add
  else if op = Opcode.sub then some .sub
  else if op = Opcode.mul then some .mul
  else if op = Opcode.div then some .div
  else none

/-- `x OP y` on unsigned bytes: computed exactly and reduced modulo 256; DIV is the floor quotient (R146). SUB adds
256 first, so that the exact difference is no negative number. DIV is used only where `y` is not 0 (R145). -/
def aluResult : AluOp → Byte → Byte → Byte
  | .add, x, y => BitVec.ofNat 8 (x.toNat + y.toNat)
  | .sub, x, y => BitVec.ofNat 8 (x.toNat + 256 - y.toNat)
  | .mul, x, y => BitVec.ofNat 8 (x.toNat * y.toNat)
  | .div, x, y => BitVec.ofNat 8 (x.toNat / y.toNat)

end Sys2Proof.Machine
end

