-- ==== Sys2Proof/Machine/Ops.lean ====
section
/-! DEFINITION. The named operations over memory, registers, the ports and the run state (00_scope.md R9), and fault
entry as one operation (60_exceptions.md R162). There is no return from a fault (R165). -/

namespace Sys2Proof.Machine

/-! ### Memory (20_memory.md): 256 cells, each 0 unless written (R35) -/

/-- What a cell that is not listed reads as: memory is zero at reset (R35, R180). -/
def Memory.unlisted : Byte := 0

/-- The canonical form: addresses strictly rising and below 256, and no cell listed that holds the unlisted value. -/
abbrev Memory.wf (m : Memory) : Prop :=
  m.Pairwise (fun c d => c.1 < d.1) ∧ ∀ c ∈ m, c.2 ≠ Memory.unlisted ∧ c.1 < Config.memSize

/-- The byte at an address (R41). -/
def Memory.read : Memory → Nat → Byte
  | [], _ => Memory.unlisted
  | (k, v) :: m, a => if k = a then v else Memory.read m a

/-- List a cell at its place by address. -/
def Memory.insert : Memory → Nat → Byte → Memory
  | [], a, v => [(a, v)]
  | (k, w) :: m, a, v =>
    if a < k then (a, v) :: (k, w) :: m
    else if a = k then (a, v) :: m
    else (k, w) :: Memory.insert m a v

/-- Store a byte at an address (R42): storing the unlisted value takes the cell off the list. -/
def Memory.write (m : Memory) (a : Nat) (v : Byte) : Memory :=
  if v = Memory.unlisted then m.filter (fun c => c.1 ≠ a) else Memory.insert m a v

/-- `MemRead(a, 1)` at an address that is a byte, hence in 0..255 (R41). -/
def State.memRead (s : State) (a : Byte) : Byte := s.mem.read a.toNat

/-- `MemWrite(a, 1, v)` at an address that is a byte, hence in 0..255 (R42). -/
def State.memWrite (s : State) (a v : Byte) : State := { s with mem := s.mem.write a.toNat v }

/-! ### Registers (R20 to R23): none is hard-wired -/

/-- `R[i]`. -/
def State.reg (s : State) (i : Fin 8) : Byte := s.regs[i.val]

/-- `R[i] <- v`; the byte is already the value modulo 256 (R23). -/
def State.setReg (s : State) (i : Fin 8) (v : Byte) : State := { s with regs := s.regs.set i.val v }

/-- `SP`, which is R7 (R22). -/
def State.sp (s : State) : Byte := s.reg Config.spIndex

/-- `SP <- v`. -/
def State.setSp (s : State) (v : Byte) : State := s.setReg Config.spIndex v

/-! ### Program counter, ports, run state -/

/-- `pc <- pc + width`, an unsigned 9-bit add (R88). -/
def State.advance (s : State) (width : Nat) : State := { s with pc := s.pc + BitVec.ofNat 9 width }

/-- `emit_out(v)` (R33, R103). -/
def State.emitOut (s : State) (v : Byte) : State := { s with out := s.out ++ [v] }

/-- `emit_diag(op, addr)` (R34, R86). -/
def State.emitDiag (s : State) (op addr : Byte) : State := { s with diag := s.diag ++ [⟨op, addr⟩] }

/-- `run_state <- Halted` (R106). -/
def State.halt (s : State) : State := { s with runState := .halted }

/-- The fetch latches three bytes (R28, R81). -/
def State.setLatch (s : State) (l : Latch) : State := { s with latch := l }

/-- The end of a step, as far as the latch goes: what it then holds is unspecified, a free value (R28; log 1). -/
def State.dropLatch (s : State) : State :=
  let v := Config.latchBetweenSteps s.draws
  { s with latch := ⟨v.1, v.2.1, v.2.2⟩, draws := s.draws + 1 }

/-! ### Fault entry (R160, R162) -/

/-- The code a trap records (R160). -/
def Trap.code : Trap → FaultCode
  | .outOfRangeMemory _   => .outOfRangeMemory
  | .outOfRangeRegister _ => .outOfRangeRegister
  | .divideByZero _       => .divideByZero

/-- The info a trap records (R160). -/
def Trap.info : Trap → PcWord
  | .outOfRangeMemory addr      => BitVec.ofNat 9 addr
  | .outOfRangeRegister operand => operand.setWidth 9
  | .divideByZero divisor       => divisor.setWidth 9

/-- Fault entry: run_state, fault_code and fault_info, and nothing else; pc stays (R85, R162). -/
def State.enterFault (s : State) (t : Trap) : State :=
  { s with runState := .faulted, faultCode := t.code, faultInfo := t.info }

/-- `raise t`: the instruction ends before any architectural write, in the fault state (R9, R85, R162). -/
def raise (t : Trap) (s : State) : Result := .next (s.enterFault t)

end Sys2Proof.Machine
end

