-- ==== Sys2Proof/Machine/Operands.lean ====
section
/-! DEFINITION. The two operand forms (30_encoding.md R66): a register index, checked where an instruction uses it
(10_state.md R24), and the immediate byte, which is the value itself and needs no operation. -/

namespace Sys2Proof.Machine

/-- The register an operand byte names, if it is 0..7. The index is not masked (R24, D5). -/
def regIndex? (operand : Byte) : Option (Fin 8) :=
  if h : operand.toNat < 8 then some ⟨operand.toNat, h⟩ else none

/-- Use an operand byte as a register index: OutOfRangeRegister with the byte as info when it is 8 or more (R24). -/
def withRegister (operand : Byte) (s : State) (k : Fin 8 → Result) : Result :=
  match regIndex? operand with
  | some i => k i
  | none   => raise (.outOfRangeRegister operand) s

end Sys2Proof.Machine
end

