-- ==== Sys2Proof/Machine/Alu.lean ====
section
/-! DEFINITION. ADD, SUB, MUL and DIV (43_alu.md). -/

namespace Sys2Proof.Machine

/-- Both operands checked as register indices, A before B, before any register is read (R141). -/
def withRegisters (a b : Byte) (s : State) (k : Fin 8 → Fin 8 → Result) : Result :=
  withRegister a s fun i => withRegister b s fun j => k i j

/-- `R[i] <- R[i] OP R[j]`: both registers are read before the write (R140, R141, R147). -/
def State.aluApply (s : State) (op : AluOp) (i j : Fin 8) : State :=
  s.setReg i (aluResult op (s.reg i) (s.reg j))

/-- ADD (R142). -/
def execAdd (a b : Byte) (s : State) : Result :=
  withRegisters a b s fun i j => .next ((s.aluApply .add i j).advance (opWidth Opcode.add))

/-- SUB (R143). -/
def execSub (a b : Byte) (s : State) : Result :=
  withRegisters a b s fun i j => .next ((s.aluApply .sub i j).advance (opWidth Opcode.sub))

/-- MUL (R144). -/
def execMul (a b : Byte) (s : State) : Result :=
  withRegisters a b s fun i j => .next ((s.aluApply .mul i j).advance (opWidth Opcode.mul))

/-- DIV (R145): DivideByZero, with the divisor's register index as info, when `R[b] = 0`; the register checks come
first (R164). -/
def execDiv (a b : Byte) (s : State) : Result :=
  withRegisters a b s fun i j =>
    if s.reg j = 0 then raise (.divideByZero b) s
    else .next ((s.aluApply .div i j).advance (opWidth Opcode.div))

end Sys2Proof.Machine
end

