-- ==== Sys2Proof/Machine/DataIo.lean ====
section
/-! DEFINITION. LDI, PRN and HLT (41_data_io_halt.md). Each meaning is the execute arm and, when that raises no fault,
the advance of pc by the instruction's width (40_engine.md R80, R88). -/

namespace Sys2Proof.Machine

/-- LDI (R101): `R[a] <- imm`. Naming R7 sets the stack pointer (R102). -/
def execLdi (a imm : Byte) (s : State) : Result :=
  withRegister a s fun i => .next ((s.setReg i imm).advance (opWidth Opcode.ldi))

/-- PRN (R103): `emit_out(R[a])`. -/
def execPrn (a : Byte) (s : State) : Result :=
  withRegister a s fun i => .next ((s.emitOut (s.reg i)).advance (opWidth Opcode.prn))

/-- HLT (R106): `run_state <- Halted`; pc still advances by 1 (R88). -/
def execHlt (s : State) : Result := .next (s.halt.advance (opWidth Opcode.hlt))

end Sys2Proof.Machine
end

