-- ==== Sys2Proof/Machine/Stack.lean ====
section
/-! DEFINITION. POP and PUSH (42_stack.md). SP holds the address of the byte pushed last; PUSH decrements before it
stores, POP loads before it increments (R120). SP arithmetic is on a byte and wraps (R121); depth and collision with
code are not checked (R122). -/

namespace Sys2Proof.Machine

/-- POP (R124): `R[a] <- M[SP]`, then `SP <- SP + 1`, which reads the SP that the first line may have written. -/
def execPop (a : Byte) (s : State) : Result :=
  withRegister a s fun i =>
    let s₁ := s.setReg i (s.memRead s.sp)
    .next ((s₁.setSp (s₁.sp + 1)).advance (opWidth Opcode.pop))

/-- PUSH (R125): `SP <- SP - 1`, then `M[SP] <- R[a]`, which reads R[a] after SP was decremented. -/
def execPush (a : Byte) (s : State) : Result :=
  withRegister a s fun i =>
    let s₁ := s.setSp (s.sp - 1)
    .next ((s₁.memWrite s₁.sp (s₁.reg i)).advance (opWidth Opcode.push))

end Sys2Proof.Machine
end

