-- ==== Sys2Proof/Machine/Engine.lean ====
section
/-! DEFINITION. The fetch-decode-execute engine (40_engine.md): the fetch, the skip of an unknown opcode, and the one
transition the core makes. -/

namespace Sys2Proof.Machine

/-- One fetch read, its address checked first: OutOfRangeMemory above 255 (R43, R82). -/
def fetchByte (s : State) (a : Nat) : Except Trap Byte :=
  if a > Config.addrMax then .error (.outOfRangeMemory a) else .ok (s.mem.read a)

/-- The three bytes at pc, pc+1 and pc+2, in this order, whatever the opcode (R80, R81); the first address above 255
is the one reported (R82). The addresses do not wrap (R25). -/
def fetch (s : State) : Except Trap Latch :=
  match fetchByte s s.pc.toNat with
  | .error t => .error t
  | .ok op =>
    match fetchByte s (s.pc.toNat + 1) with
    | .error t => .error t
    | .ok a =>
      match fetchByte s (s.pc.toNat + 2) with
      | .error t => .error t
      | .ok b => .ok ⟨op, a, b⟩

/-- An unknown opcode (R68, R86): report (op, pc) and skip `width(op)` bytes. The address is the step's pc, which is
at most 253 whenever the fetch succeeded (R82, R184; log 15). -/
def skipUnknown (op : Byte) (s : State) : Result :=
  .next ((s.emitDiag op (s.pc.setWidth 8)).advance (opWidth op))

/-- Decode what the latch holds and execute it (R83, R84). -/
def executeLatched (s : State) : Result :=
  match decode s.latch with
  | .instr i    => exec i s
  | .unknown op => skipUnknown op s

/-- The step is over: the latch's contents are no longer specified (R28; log 1). -/
def finishStep : Result → Result
  | .next t    => .next t.dropLatch
  | .fault r   => .fault r
  | .refused r => .refused r

/-- One step of a Running core (R80): fetch into the latch, then decode and execute; a fetch that raises is the fault
entry and nothing else (R85). -/
def runningStep (s : State) : Result :=
  match fetch s with
  | .error t => finishStep (raise t s)
  | .ok l    => finishStep (executeLatched (s.setLatch l))

/-- The core's transition. Halted and Faulted are absorbing: nothing is fetched and nothing changes until reset (R87,
R174; log 3). -/
def engineStep (s : State) : Result :=
  match s.runState with
  | .running => runningStep s
  | .halted  => .next s
  | .faulted => .next s

/-- Store three bytes at an address and the two after it; what would lie above address 255 is dropped. -/
def placeLatch (m : Memory) (a : Nat) (l : Latch) : Memory :=
  let put (m : Memory) (k : Nat) (v : Byte) : Memory := if k > Config.addrMax then m else m.write k v
  put (put (put m a l.op) (a + 1) l.a) (a + 2) l.b

end Sys2Proof.Machine
end

