-- ==== Sys2Proof/Machine/Step.lean ====
section
/-! DEFINITION. The step function, and the placing of one instruction where the next step fetches it. -/

namespace Sys2Proof.Machine

/-- One step of the machine (40_engine.md R80, R87). -/
def step (s : State) : Host.Outcome State Fault Refusal := engineStep s

/-- `s` with the instruction whose bits are `w` stored at the program counter, all three bytes a step fetches. It is
meant for a Running state with pc at most 253, where a fetch can succeed at all (R82); reset is one. -/
def State.withFetchWord (s : State) (nbits w : Nat) : State :=
  { s with mem := placeLatch s.mem s.pc.toNat (latchOfTableWord nbits w) }

end Sys2Proof.Machine
end

