-- ==== Sys2Proof/Machine/HostPort.lean ====
section
/-! DEFINITION. The host's side of the core (70_reset_and_hazards.md): the program image, the reset pin and the load
port, the output, diagnostic and status ports, the inspection port. Clocks are left out: one tick is one step (log 6). -/

namespace Sys2Proof.Machine

/-! ### The program image (R186) -/

/-- Write the bytes of a list at ascending addresses from `a`. -/
def Memory.writeFrom (m : Memory) : Nat → List Byte → Memory
  | _, [] => m
  | a, b :: bs => Memory.writeFrom (m.write a b) (a + 1) bs

/-- Memory once an image is loaded: byte bi at address i, 0 in every other cell (R186). An image has at most 256
bytes; what a longer list holds beyond that has no cell. -/
def loadImage (image : List Byte) : Memory := Memory.writeFrom [] 0 (image.take Config.memSize)

/-- The state in which steps begin once `rst` is released, with an image loaded (R35, R180). -/
def State.boot (image : List Byte) : State := { State.reset with mem := loadImage image }

/-! ### The reset pin and the load port (R180, R181, R186, R193) -/

/-- The core's input ports, as sampled on one clock edge (R184). -/
structure Inputs where
  rst     : Bool
  ldWe    : Bool
  ldAddr  : Byte
  ldData  : Byte
  hstSel  : Bool
  hstAddr : Byte
  deriving DecidableEq, Repr

/-- The core and the level of `rst` sampled on the edge before. -/
structure System where
  core    : State
  rstSeen : Bool
  deriving DecidableEq, Repr

/-- Memory after an edge with `rst` = 1. When `rst` rises every cell becomes 0; while it stays 1 the load port writes
(R180). Whether a strobe on the rising edge itself is honoured is a free value (log 7). -/
def System.memInReset (sys : System) (inp : Inputs) : Memory :=
  let m : Memory := if sys.rstSeen then sys.core.mem else []
  if inp.ldWe && (sys.rstSeen || Config.loadOnRisingEdge) then m.write inp.ldAddr.toNat inp.ldData else m

/-- The core after an edge with `rst` = 1: every value of R35 but memory, whatever the state was (R180, R181). The
model's count of free values goes on, so that a run after reset draws new ones (log 8). -/
def System.inReset (sys : System) (inp : Inputs) : State :=
  { State.reset with mem := sys.memInReset inp, draws := sys.core.draws }

/-- One clock edge of the model: while `rst` is 1 no step is performed (R180); otherwise the core makes one step, and
the load port is ignored (R193, I10). -/
def System.tick (sys : System) (inp : Inputs) : Host.Outcome System Fault Refusal :=
  if inp.rst then .next ⟨sys.inReset inp, true⟩
  else
    match step sys.core with
    | .next t    => .next ⟨t, false⟩
    | .fault r   => .fault r
    | .refused r => .refused r

/-- A sequence of edges, one set of inputs each. -/
def System.ticks (sys : System) : List Inputs → Host.Outcome System Fault Refusal
  | [] => .next sys
  | inp :: rest =>
    match sys.tick inp with
    | .next sys' => System.ticks sys' rest
    | .fault r   => .fault r
    | .refused r => .refused r

/-- Inputs that hold `rst` at 1 and nothing else. -/
def Inputs.holdReset : Inputs := ⟨true, false, 0, 0, false, 0⟩

/-- Inputs that run the core and nothing else. -/
def Inputs.run : Inputs := ⟨false, false, 0, 0, false, 0⟩

/-- Inputs that load one byte while `rst` is 1. -/
def Inputs.load (addr data : Byte) : Inputs := ⟨true, true, addr, data, false, 0⟩

/-- The host's duty for an image (R186): assert `rst`, then load byte bi at address i, in order. -/
def loadSequence (image : List Byte) : List Inputs :=
  Inputs.holdReset :: (image.zipIdx.map fun p => Inputs.load (BitVec.ofNat 8 p.2) p.1)

/-! ### The status, output and diagnostic ports (R184) -/

/-- run_state on the port (R26). -/
def RunState.code : RunState → BitVec 2
  | .running => 0
  | .halted  => 1
  | .faulted => 2

/-- fault_code on the port (R160). -/
def FaultCode.code : FaultCode → BitVec 3
  | .noFault              => 0
  | .outOfRangeMemory     => 1
  | .outOfRangeRegister   => 2
  | .divideByZero         => 3
  | .unsupportedOperation => 4

/-- The `out_valid` pulse of a step, with `out_data`: the byte the step appended to `out` (R103, R184). -/
def outPulse (before after : State) : Option Byte :=
  if before.out.length < after.out.length then after.out.getLast? else none

/-- The `diag_valid` pulse of a step, with `diag_opcode` and `diag_addr` (R86, R184). -/
def diagPulse (before after : State) : Option DiagEntry :=
  if before.diag.length < after.diag.length then after.diag.getLast? else none

/-- The inspection port (R185): memory or register, without side effect, once the core is not Running; unspecified
while it is, a free value for the read numbered `readNo` (log 5). -/
def State.hstData (s : State) (readNo : Nat) (sel : Bool) (addr : Byte) : Byte :=
  match s.runState with
  | .running => Config.hstDataWhileRunning readNo
  | .halted | .faulted =>
    if sel then s.reg ⟨addr.toNat % 8, Nat.mod_lt _ (by decide)⟩ else s.memRead addr

/-- The core's output ports after a step (R184). A pulse is `some` while its valid line is 1. -/
structure Outputs where
  outPort   : Option Byte
  diagPort  : Option DiagEntry
  runState  : BitVec 2
  faultCode : BitVec 3
  faultInfo : PcWord
  pcOut     : PcWord
  hstData   : Byte
  deriving DecidableEq, Repr

/-- The ports after a step from `before` to `after`. -/
def outputs (before after : State) (readNo : Nat) (inp : Inputs) : Outputs where
  outPort   := outPulse before after
  diagPort  := diagPulse before after
  runState  := after.runState.code
  faultCode := after.faultCode.code
  faultInfo := after.faultInfo
  pcOut     := after.pc
  hstData   := after.hstData readNo inp.hstSel inp.hstAddr

/-! ### What the host shows (R104) -/

/-- The line the host shows for one output value: its unsigned decimal digits. -/
def outLine (v : Byte) : List Char := Nat.toDigits 10 v.toNat

/-- The lines the host shows for a run's output, in order. -/
def State.outLines (s : State) : List (List Char) := s.out.map outLine

end Sys2Proof.Machine
end

