-- ==== Sys2Proof/Machine/Loader.lean ====
section
/-! DEFINITION. The text form of a program image, the loader's contract (30_encoding.md R74;
70_reset_and_hazards.md R186). The loader itself is the host's and outside the core (00_scope.md R4). What the spec
leaves open of the text is in log 10. -/

namespace Sys2Proof.Machine

/-- White space within a line (log 10). -/
def isBlank (c : Char) : Bool := c == ' ' || c == '\t' || c == '\r'

/-- A line without the white space at both ends. -/
def trimBlank (l : List Char) : List Char := ((l.dropWhile isBlank).reverse.dropWhile isBlank).reverse

/-- A line without its trailing comment, and trimmed (R74, R186). -/
def lineBody (l : List Char) : List Char := trimBlank (l.takeWhile (· ≠ '#'))

/-- The digits of a binary number, in the order of their values (R74). -/
def binDigits : List Char := "01".toList

/-- The value of a string, most significant digit first, in the base whose digits are listed: a digit's value is its
place in the list. `none` for the empty string and where a character is no digit. -/
def digitsValue (digits cs : List Char) : Option Nat :=
  if cs = [] then none
  else (cs.mapM fun c => digits.idxOf? c).map (List.foldl (fun n d => digits.length * n + d) 0)

/-- What one line of the text stands for (R186). -/
inductive LoadLine where
  /-- blank or comment only: takes no address -/
  | skip
  | byte (v : Byte)
  /-- MalformedProgramLine: no base-2 integer, or a value above 255 -/
  | malformed
  deriving DecidableEq, Repr

/-- Read one line (R74, R186). -/
def readLine (l : List Char) : LoadLine :=
  match lineBody l with
  | [] => .skip
  | body =>
    match digitsValue binDigits body with
    | some n => if n ≤ 255 then .byte (BitVec.ofNat 8 n) else .malformed
    | none   => .malformed

/-- Why an image is refused before any run (R186, D20). -/
inductive LoadRefusal where
  /-- MalformedProgramLine, with the line's number from 0 -/
  | malformedProgramLine (lineNo : Nat)
  /-- a 257th byte line -/
  | imageTooLong
  deriving DecidableEq, Repr

/-- The bytes of the lines from line `lineNo` on. -/
def readLines : Nat → List (List Char) → Except LoadRefusal (List Byte)
  | _, [] => .ok []
  | lineNo, l :: ls =>
    match readLine l with
    | .malformed => .error (.malformedProgramLine lineNo)
    | .skip => readLines (lineNo + 1) ls
    | .byte v =>
      match readLines (lineNo + 1) ls with
      | .ok bs => .ok (v :: bs)
      | .error e => .error e

/-- The image a text stands for, or why it is refused (R186). -/
def readImage (text : List (List Char)) : Except LoadRefusal (List Byte) :=
  match readLines 0 text with
  | .error e => .error e
  | .ok bs => if bs.length ≤ Config.memSize then .ok bs else .error .imageTooLong

/-- The state in which the program of a text starts; a refused text never starts (R186). -/
def loadText (text : List (List Char)) : Except LoadRefusal State :=
  match readImage text with
  | .error e => .error e
  | .ok image => .ok (State.boot image)

end Sys2Proof.Machine
end

