-- ==== Sys2Proof/Machine/Assembler.lean ====
section
/-! DEFINITION. The assembly notation (00_scope.md R10; 30_encoding.md R71, R72): an instruction as text, text as
statements, and the image of a program. What the grammar leaves open (white space, the form of a label) is in log 11. -/

namespace Sys2Proof.Machine

/-! ### An instruction as text -/

/-- A register operand, `Rn`. -/
def regText (a : Byte) : List Char := 'R' :: Nat.toDigits 10 a.toNat

/-- An instruction in the notation of R10. -/
def asmText : Instr → List Char
  | .ldi a imm => "LDI ".toList ++ regText a ++ ',' :: Nat.toDigits 10 imm.toNat
  | .prn a     => "PRN ".toList ++ regText a
  | .hlt       => "HLT".toList
  | .pop a     => "POP ".toList ++ regText a
  | .push a    => "PUSH ".toList ++ regText a
  | .add a b   => "ADD ".toList ++ regText a ++ ',' :: regText b
  | .sub a b   => "SUB ".toList ++ regText a ++ ',' :: regText b
  | .mul a b   => "MUL ".toList ++ regText a ++ ',' :: regText b
  | .div a b   => "DIV ".toList ++ regText a ++ ',' :: regText b

/-! ### Text as statements (R72) -/

/-- The pieces of a text between occurrences of a separator. -/
def splitAtChar (sep : Char) : List Char → List (List Char)
  | [] => [[]]
  | c :: cs =>
    match splitAtChar sep cs with
    | [] => [[c]]
    | p :: ps => if c = sep then [] :: p :: ps else (c :: p) :: ps

/-- The digits of a decimal and of a hexadecimal immediate, in the order of their values (R72). -/
def decDigits : List Char := "0123456789".toList
def hexDigits : List Char := "0123456789ABCDEF".toList

/-- A label's form: a letter or underscore, then letters, digits and underscores (log 11). -/
def isLabelText : List Char → Bool
  | [] => false
  | c :: cs => (c.isAlpha || c == '_') && cs.all fun d => d.isAlphanum || d == '_'

/-- `reg ::= "R" digit0to7`, the byte 0..7. -/
def parseReg : List Char → Option Byte
  | ['R', c] => ("01234567".toList.idxOf? c).map (BitVec.ofNat 8)
  | _ => none

/-- `imm ::= decimal 0..255 | "0x" two hexadecimal digits | "0b" eight binary digits`; a hexadecimal digit
may have either case (log 11). -/
def parseImm (cs : List Char) : Option Byte :=
  let value :=
    match cs with
    | '0' :: 'x' :: ds => if ds.length = 2 then digitsValue hexDigits (ds.map Char.toUpper) else none
    | '0' :: 'b' :: ds => if ds.length = 8 then digitsValue binDigits ds else none
    | ds => digitsValue decDigits ds
  value.bind fun n => if n ≤ 255 then some (BitVec.ofNat 8 n) else none

/-- An instruction as written: complete, or an LDI whose immediate is a label (R72). -/
inductive AsmInsn where
  | plain (i : Instr)
  | ldiLabel (a : Byte) (label : List Char)
  deriving DecidableEq, Repr

/-- A statement: a label, an instruction, both or neither (R72). -/
structure AsmStmt where
  label : Option (List Char)
  insn  : Option AsmInsn
  deriving DecidableEq, Repr

/-- LDI's operands: a register, and an immediate or a label. -/
def parseLdi (reg imm : List Char) : Option AsmInsn :=
  (parseReg reg).bind fun a =>
    match parseImm imm with
    | some v => some (.plain (.ldi a v))
    | none   => if isLabelText imm then some (.ldiLabel a imm) else none

/-- An instruction with one register operand. -/
def parseOneReg (mk : Byte → Instr) : List (List Char) → Option AsmInsn
  | [r] => (parseReg r).map fun a => .plain (mk a)
  | _ => none

/-- An instruction with two register operands. -/
def parseTwoRegs (mk : Byte → Byte → Instr) : List (List Char) → Option AsmInsn
  | [r, t] => (parseReg r).bind fun a => (parseReg t).map fun b => .plain (mk a b)
  | _ => none

/-- `insn` of R72: an upper-case mnemonic and its operands. -/
def parseInsn (cs : List Char) : Option AsmInsn :=
  let mnemonic := cs.takeWhile fun c => !isBlank c
  let rest := trimBlank (cs.dropWhile fun c => !isBlank c)
  let operands := (splitAtChar ',' rest).map trimBlank
  if mnemonic = "HLT".toList then (if rest = [] then some (.plain .hlt) else none)
  else if mnemonic = "PRN".toList then parseOneReg .prn operands
  else if mnemonic = "POP".toList then parseOneReg .pop operands
  else if mnemonic = "PUSH".toList then parseOneReg .push operands
  else if mnemonic = "LDI".toList then
    match operands with
    | [r, v] => parseLdi r v
    | _ => none
  else if mnemonic = "ADD".toList then parseTwoRegs .add operands
  else if mnemonic = "SUB".toList then parseTwoRegs .sub operands
  else if mnemonic = "MUL".toList then parseTwoRegs .mul operands
  else if mnemonic = "DIV".toList then parseTwoRegs .div operands
  else none

/-- The instruction part of a statement, which may be empty. -/
def parseInsn? (cs : List Char) : Option (Option AsmInsn) :=
  if cs = [] then some none else (parseInsn cs).map some

/-- `stmt ::= [label ":"] [insn]` (R72). -/
def parseStmt (cs : List Char) : Option AsmStmt :=
  match splitAtChar ':' cs with
  | [body] => (parseInsn? (trimBlank body)).map fun i => ⟨none, i⟩
  | [l, body] =>
    if isLabelText (trimBlank l) then (parseInsn? (trimBlank body)).map fun i => ⟨some (trimBlank l), i⟩ else none
  | _ => none

/-- `line ::= stmt (";" stmt)* ["#" comment]` (R72). -/
def parseLine (l : List Char) : Option (List AsmStmt) := (splitAtChar ';' (lineBody l)).mapM parseStmt

/-! ### Assembly -/

/-- The number of bytes a statement takes. -/
def AsmStmt.width (st : AsmStmt) : Nat :=
  match st.insn with
  | none => 0
  | some (.plain i) => i.width
  | some (.ldiLabel _ _) => opWidth Opcode.ldi

/-- The labels of a program and the addresses they stand for: that of the next instruction (R72). DESIGN CHOICE (log
11): R72 is silent on a label with no instruction after it; here it stands for the address after the last byte. -/
def labelTable : Nat → List AsmStmt → List (List Char × Nat)
  | _, [] => []
  | addr, st :: rest =>
    let more := labelTable (addr + st.width) rest
    match st.label with
    | some l => (l, addr) :: more
    | none   => more

/-- The bytes of a statement; a label used must be defined and its address a byte. -/
def AsmStmt.bytes (labels : List (List Char × Nat)) (st : AsmStmt) : Option (List Byte) :=
  match st.insn with
  | none => some []
  | some (.plain i) => some (encode i)
  | some (.ldiLabel a l) =>
    (labels.lookup l).bind fun n => if n ≤ 255 then some (encode (.ldi a (BitVec.ofNat 8 n))) else none

/-- The image of a program text (R72), or `none` where the text is not of the grammar, a label is undefined or
defined twice, or the image is longer than memory. -/
def assemble (text : List (List Char)) : Option (List Byte) :=
  (text.mapM parseLine).bind fun lines =>
    let stmts := lines.flatten
    let labels := labelTable 0 stmts
    if (labels.map Prod.fst).Nodup then
      (stmts.mapM (AsmStmt.bytes labels)).bind fun bss =>
        if bss.flatten.length ≤ Config.memSize then some bss.flatten else none
    else none

end Sys2Proof.Machine
end

