-- ==== Sys2Proof/Safety.lean ====
section
/-! DEFINITION. What the claims call a good state and a good run: the invariant of the core (10_state.md R25 to R27,
R34; 60_exceptions.md R160), the two ends of a run and its observation (40_engine.md R90). -/

namespace Sys2Proof.Machine

/-- A fault status the core can record: a code with an info of that code's range (R160). None and
UnsupportedOperation are no fault of a Faulted core (R27, R166). -/
def faultStatusLegal : FaultCode → PcWord → Prop
  | .noFault, _                 => False
  | .outOfRangeMemory, info     => 256 ≤ info.toNat ∧ info.toNat ≤ 259
  | .outOfRangeRegister, info   => 8 ≤ info.toNat ∧ info.toNat ≤ 255
  | .divideByZero, info         => info.toNat ≤ 7
  | .unsupportedOperation, _    => False

/-- The invariant of the core. -/
structure State.Inv (s : State) : Prop where
  /-- memory keeps its canonical form, so every cell lies in 0..255 (R40) -/
  memory : s.mem.wf
  /-- pc takes values 0..259 only (R25) -/
  pcRange : s.pc.toNat ≤ 259
  /-- no fault status while Running or Halted (R27) -/
  statusClear : s.runState ≠ .faulted → s.faultCode = .noFault ∧ s.faultInfo = 0
  /-- a fault status of R160's table while Faulted -/
  statusLegal : s.runState = .faulted → faultStatusLegal s.faultCode s.faultInfo
  /-- a Halted core stands just after an address at which HLT can run (R106, R187) -/
  haltedPc : s.runState = .halted → 1 ≤ s.pc.toNat ∧ s.pc.toNat ≤ 254
  /-- only unknown opcodes have been reported, at addresses a step can run at (R34, R82, R86) -/
  diagUnknown : ∀ d ∈ s.diag, kindOf d.opcode = .unknown ∧ d.addr.toNat ≤ 253

/-- The architectural state: the tuple at the head of 10_state.md, `(R[0..7], pc, M[0..255], run_state, fault_code,
fault_info)`. The latch is hidden and transient (R28), and `draws` is the model's own (log 1): neither is in it. -/
structure ArchState where
  regs      : Vector Byte 8
  pc        : PcWord
  mem       : Memory
  runState  : RunState
  faultCode : FaultCode
  faultInfo : PcWord
  deriving DecidableEq, Repr

/-- The architectural part of a state. -/
def State.arch (s : State) : ArchState := ⟨s.regs, s.pc, s.mem, s.runState, s.faultCode, s.faultInfo⟩

/-- A run's observation: the triple (final architectural state, `out`, `diag`) (R90). -/
structure Observation where
  final : ArchState
  out   : List Byte
  diag  : List DiagEntry
  deriving DecidableEq, Repr

def State.observe (s : State) : Observation := ⟨s.arch, s.out, s.diag⟩

/-- A run from `s` ends, after at most `n` steps, in the state `t` (R90): `t` is the first that is not Running,
because such a state is kept (R87). -/
def EndsIn (n : Nat) (s t : State) : Prop :=
  Host.Core.run Sys2Proof.core n s = .next t ∧ t.runState ≠ .running

/-- The normal end (R90): the run ends in Halted. A Faulted end is none. -/
def EndsNormally (n : Nat) (s t : State) : Prop := EndsIn n s t ∧ t.runState = .halted

/-! ### Which fault a step raises, as the tables of R161 and R164 say it -/

/-- The instruction uses operand A as a register index: all but HLT and the unknown opcodes (R161). -/
def usesRegA (op : Byte) : Bool :=
  kindOf op ∈ [.ldi, .prn, .pop, .push, .add, .sub, .mul, .div]

/-- The instruction uses operand B as a register index: the four ALU instructions (R161). -/
def usesRegB (op : Byte) : Bool := kindOf op ∈ [.add, .sub, .mul, .div]

/-- The conditions under which a step of a Running core faults, each with its fault, in the order of R164. -/
def faultConditions (s : State) : List (Bool × Trap) :=
  let pc := s.pc.toNat
  let op := s.mem.read pc
  let a := s.mem.read (pc + 1)
  let b := s.mem.read (pc + 2)
  [(decide (255 < pc), .outOfRangeMemory pc),
   (decide (255 < pc + 1), .outOfRangeMemory (pc + 1)),
   (decide (255 < pc + 2), .outOfRangeMemory (pc + 2)),
   (usesRegA op && decide (8 ≤ a.toNat), .outOfRangeRegister a),
   (usesRegB op && decide (8 ≤ b.toNat), .outOfRangeRegister b),
   (decide (kindOf op = .div) && s.regs.toList.getD b.toNat 0 == 0, .divideByZero b)]

/-- The first condition that holds, if any (R164). -/
def firstFault (s : State) : Option Trap := ((faultConditions s).find? (·.1)).map (·.2)

/-! ### Instructions one after another -/

/-- Execute a list of instructions in order, each in the state the one before it left. -/
def execAll : List Instr → State → Result
  | [], s => .next s
  | i :: is, s =>
    match exec i s with
    | .next t    => execAll is t
    | .fault r   => .fault r
    | .refused r => .refused r

end Sys2Proof.Machine
end

