-- ==== Sys2Proof/WellFormed.lean ====
section
/-! DEFINITION. Well-formed instructions: those the assembly notation can write (30_encoding.md R72), that is, whose
register-index operands lie in 0..7 (10_state.md R24, 30_encoding.md R66). An ill-formed instruction still decodes and
still has the meaning the spec gives it: it raises OutOfRangeRegister (log 14). -/

namespace Sys2Proof

/-- The byte is a register index, 0..7 (R24). -/
def isRegIndex (operand : Byte) : Bool := decide (operand.toNat < Config.nregs)

/-- Every register-index operand of the instruction is in range (R66). LDI's second operand is an immediate. -/
def Instr.wellFormed : Instr → Bool
  | .ldi a _ => isRegIndex a
  | .prn a   => isRegIndex a
  | .hlt     => true
  | .pop a   => isRegIndex a
  | .push a  => isRegIndex a
  | .add a b => isRegIndex a && isRegIndex b
  | .sub a b => isRegIndex a && isRegIndex b
  | .mul a b => isRegIndex a && isRegIndex b
  | .div a b => isRegIndex a && isRegIndex b

end Sys2Proof
end

