-- ==== Sys2Proof/Certificates/Slice0/Obligations.lean ====
section
/-! DEFINITION. The statements for the provers. Each docstring names the rule of the spec it formalises. Where a
statement speaks of a whole step it exempts `latch`, which is a free value between steps, and `draws`, the model's own
count of free values (log 1): no statement rests on their values. -/

open Sys2Proof Sys2Proof.Machine

/-! ## Reset -/

/-- R35: the state in which steps begin, for every image of at most 256 bytes; with no image it is `State.reset`. -/
def Obligations.ResetLeavesTheSpecValues : Prop :=
  State.boot [] = State.reset ∧
  ∀ image : List Byte, image.length ≤ 256 →
    (∀ i : Fin 8, (State.boot image).regs[i.val] = if i = 7 then 0xF4 else 0) ∧
    (State.boot image).pc = 0 ∧
    (∀ a, a < 256 → (State.boot image).mem.read a = image.getD a 0) ∧
    (State.boot image).runState = .running ∧
    (State.boot image).faultCode.code = 0 ∧ (State.boot image).faultInfo = 0 ∧
    (State.boot image).out = [] ∧ (State.boot image).diag = []

/-- R180, R181: an edge with `rst` = 1 restores the reset state from any state of the core, whatever its run state.
Entering reset clears memory: with a load strobe on that very edge, every cell but the one it addresses, which holds 0
or the loaded byte (log 7 leaves open which); while reset lasts a strobe writes one cell. The latch is exempt (R28, R35
leave it unspecified). That `draws`, the model's own count, goes on is the model's choice (log 8). -/
def Obligations.ResetRestoresFromAnyState : Prop :=
  ∀ (sys : System) (inp : Inputs), inp.rst = true →
    ∃ sys', sys.tick inp = .next sys' ∧ sys'.rstSeen = true ∧
      sys'.core = { State.reset with
        mem := sys'.core.mem, latch := sys'.core.latch, draws := sys.core.draws } ∧
      (sys.rstSeen = false → ∀ a, (inp.ldWe = true → a ≠ inp.ldAddr.toNat) → sys'.core.mem.read a = 0) ∧
      (sys.rstSeen = false → inp.ldWe = true →
        sys'.core.mem.read inp.ldAddr.toNat = 0 ∨ sys'.core.mem.read inp.ldAddr.toNat = inp.ldData) ∧
      (sys.rstSeen = true → ∀ a, sys'.core.mem.read a =
        if inp.ldWe = true ∧ a = inp.ldAddr.toNat then inp.ldData else sys.core.mem.read a)

/-- R180, R186, R193: from any state of the core (so also to abandon a run), asserting reset and loading an image byte
by byte leaves exactly the state in which its program starts, and the next edge makes the core's first step from it.
THE MODEL'S CHOICES in it: the latch's zeros after reset (log 2; R28 and R35 leave the latch unspecified), `draws` going
on through reset (log 8), and one edge with `rst` = 0 being one whole step (log 6; R183 fixes no number of cycles). -/
def Obligations.LoadSequenceStartsTheProgram : Prop :=
  ∀ (sys : System) (image : List Byte), image.length ≤ 256 → sys.rstSeen = false →
    ∃ sys', sys.ticks (loadSequence image) = .next sys' ∧
      sys'.core = { State.boot image with draws := sys.core.draws } ∧
      ∀ t, step { State.boot image with draws := sys.core.draws } = .next t →
        sys'.tick Inputs.run = .next ⟨t, false⟩

/-- R193, I10: while `rst` is 0 the load port is ignored, and so are the inspection inputs. That one edge
is one whole step is the model's choice (log 6; R183 fixes no number of cycles). -/
def Obligations.LoadPortIgnoredWhileRunning : Prop :=
  ∀ (sys : System) (inp : Inputs) (t : State), inp.rst = false → step sys.core = .next t →
    sys.tick inp = .next ⟨t, false⟩

/-! ## Encoding -/

/-- R64: the nine opcodes, their widths, operand counts and ALU flags, each word written out from the table. -/
def Obligations.OpcodeTableDecodes : Prop :=
  ∀ a b : Byte,
    (decode ⟨0x82, a, b⟩ = .instr (.ldi a b) ∧ opWidth 0x82 = 3 ∧ aluFlag 0x82 = false) ∧
    (decode ⟨0x47, a, b⟩ = .instr (.prn a) ∧ opWidth 0x47 = 2 ∧ aluFlag 0x47 = false) ∧
    (decode ⟨0x01, a, b⟩ = .instr .hlt ∧ opWidth 0x01 = 1 ∧ aluFlag 0x01 = false) ∧
    (decode ⟨0x46, a, b⟩ = .instr (.pop a) ∧ opWidth 0x46 = 2 ∧ aluFlag 0x46 = false) ∧
    (decode ⟨0x45, a, b⟩ = .instr (.push a) ∧ opWidth 0x45 = 2 ∧ aluFlag 0x45 = false) ∧
    (decode ⟨0xA0, a, b⟩ = .instr (.add a b) ∧ opWidth 0xA0 = 3 ∧ aluFlag 0xA0 = true) ∧
    (decode ⟨0xA1, a, b⟩ = .instr (.sub a b) ∧ opWidth 0xA1 = 3 ∧ aluFlag 0xA1 = true) ∧
    (decode ⟨0xA2, a, b⟩ = .instr (.mul a b) ∧ opWidth 0xA2 = 3 ∧ aluFlag 0xA2 = true) ∧
    (decode ⟨0xA3, a, b⟩ = .instr (.div a b) ∧ opWidth 0xA3 = 3 ∧ aluFlag 0xA3 = true)

/-- R62, R69, R140: an opcode with the ALU flag reaches the ALU if it is one of the four, and is unknown otherwise; a
known opcode without the flag does not use the ALU. The selector is tied to the machine: it selects an operation for
exactly the opcode that decodes to the instruction of that operation, and that instruction applies it. -/
def Obligations.AluFlagOpcodesOutsideTheTableAreUnknown : Prop :=
  ∀ op : Byte,
    (aluFlag op = true → op ∉ [0xA0, 0xA1, 0xA2, 0xA3] → kindOf op = .unknown ∧ aluSelect op = none) ∧
    (kindOf op ≠ .unknown → (aluFlag op = true ↔ op ∈ [0xA0, 0xA1, 0xA2, 0xA3])) ∧
    ((aluSelect op).isSome = true ↔ op ∈ [0xA0, 0xA1, 0xA2, 0xA3]) ∧
    ∀ p ∈ [(AluOp.add, Instr.add), (.sub, .sub), (.mul, .mul), (.div, .div)], ∀ a b : Byte,
      (aluSelect op = some p.1 ↔ decode ⟨op, a, b⟩ = .instr (p.2 a b)) ∧
      ∀ (s : State) (ha : a.toNat < 8) (hb : b.toNat < 8), (p.1 = .div → s.regs[b.toNat] ≠ 0) →
        exec (p.2 a b) s = .next { s with
          regs := s.regs.set a.toNat (aluResult p.1 s.regs[a.toNat] s.regs[b.toNat]), pc := s.pc + 3 }

/-- R67: operand bytes an instruction does not use have no effect on what is executed. -/
def Obligations.UnusedOperandBytesAreIgnored : Prop :=
  ∀ op a b a' b' : Byte,
    (kindOf op ∈ [.prn, .pop, .push] → decode ⟨op, a, b⟩ = decode ⟨op, a, b'⟩) ∧
    (kindOf op ∈ [.hlt, .unknown] → decode ⟨op, a, b⟩ = decode ⟨op, a', b'⟩)

/-- R60, R64, R72: decode and encode agree for EVERY instruction and every value of every operand, whatever bytes
follow; and a state whose memory holds the bytes of an instruction at pc fetches exactly that instruction. -/
def Obligations.DecodeOfEncodeIsTheInstruction : Prop :=
  (∀ (i : Instr) (rest : List Byte), decode (latchOf (encode i ++ rest)) = .instr i) ∧
  ∀ (s : State) (i : Instr), s.pc.toNat ≤ 253 →
    (∀ (k : Nat) (hk : k < (encode i).length), s.mem.read (s.pc.toNat + k) = (encode i)[k]) →
    ∃ l, fetch s = .ok l ∧ decode l = .instr i

/-- R61, R70: a decoded instruction's bytes are the first `width` latched bytes, so its width is one more than the
number of operand bytes it consumes. -/
def Obligations.EncodeOfDecodeIsTheLatchedBytes : Prop :=
  ∀ (l : Latch) (i : Instr), decode l = .instr i →
    encode i = [l.op, l.a, l.b].take (opWidth l.op) ∧ i.width = opWidth l.op ∧
    i.width = i.operands.length + 1

/-- R72: the assembly text of every well-formed instruction is read back as that instruction, and assembles to its
encoding. Where the grammar leaves the text open, log 11 is the model's choice. -/
def Obligations.AssemblyTextReadsBack : Prop :=
  ∀ i : Instr, i.wellFormed = true →
    parseInsn (asmText i) = some (.plain i) ∧ assemble [asmText i] = some (encode i)

/-! ## The step -/

/-- R80, R83, R84: a step of a Running core executes the instruction its three fetched bytes decode to, in the state
whose latch holds them; what it adds is only that the latch is unspecified afterwards (log 1, the model's choice). -/
def Obligations.StepExecutesTheDecodedInstruction : Prop :=
  ∀ (s : State) (l : Latch) (i : Instr), s.runState = .running → fetch s = .ok l → decode l = .instr i →
    step s = finishStep (exec i { s with latch := l })

/-- R81, R82: at pc 0..253 the fetch gives the bytes at pc, pc+1, pc+2 whatever the opcode; at 254 and above a step
faults with OutOfRangeMemory, its info the first address above 255, and nothing else changes. -/
def Obligations.FetchReadsThreeBytesOrFaults : Prop :=
  ∀ s : State, s.runState = .running →
    (s.pc.toNat ≤ 253 →
      fetch s = .ok ⟨s.mem.read s.pc.toNat, s.mem.read (s.pc.toNat + 1), s.mem.read (s.pc.toNat + 2)⟩) ∧
    (254 ≤ s.pc.toNat →
      ∃ l n, step s = .next { s with
        runState := .faulted, faultCode := .outOfRangeMemory,
        faultInfo := if s.pc.toNat ≤ 255 then 256 else s.pc, latch := l, draws := n })

/-- R85, R161, R162, R164: a step faults exactly when a condition of R161 holds; it then records the FIRST in R164's
order, sets the three status fields and changes nothing else, pc included. -/
def Obligations.StepRaisesTheFirstFaultPrecisely : Prop :=
  ∀ s : State, s.runState = .running →
    (∀ trap, firstFault s = some trap →
      ∃ l n, step s = .next { s with
        runState := .faulted, faultCode := trap.code, faultInfo := trap.info, latch := l, draws := n }) ∧
    (firstFault s = none → ∃ t, step s = .next t ∧ t.runState ≠ .faulted)

/-- R68, R86: the 247 unknown opcodes, counted by width; each is skipped: one diagnostic (op, pc), pc moves by the
width of the byte itself, nothing else changes. -/
def Obligations.UnknownOpcodesAreReportedAndSkipped : Prop :=
  ((List.range 256).filter fun n => kindOf (BitVec.ofNat 8 n) = .unknown).length = 247 ∧
  ([1, 2, 3, 4].map fun w => ((List.range 256).filter fun n =>
    kindOf (BitVec.ofNat 8 n) = .unknown ∧ opWidth (BitVec.ofNat 8 n) = w).length) = [63, 61, 59, 64] ∧
  ∀ s : State, s.runState = .running → s.pc.toNat ≤ 253 → kindOf (s.mem.read s.pc.toNat) = .unknown →
    ∃ t, step s = .next t ∧ diagPulse s t = some ⟨s.mem.read s.pc.toNat, BitVec.ofNat 8 s.pc.toNat⟩ ∧
      t = { s with
        diag := s.diag ++ [⟨s.mem.read s.pc.toNat, BitVec.ofNat 8 s.pc.toNat⟩],
        pc := s.pc + BitVec.ofNat 9 ((s.mem.read s.pc.toNat).toNat / 64 + 1), latch := t.latch, draws := t.draws }

/-- R61, R88: the width formula, and pc moves by exactly the width of the fetched opcode in every step that does not
fault, without wrapping, and stays in one that does. -/
def Obligations.PcAdvancesByTheWidth : Prop :=
  (∀ op : Byte, opWidth op = op.toNat / 64 + 1 ∧ 1 ≤ opWidth op ∧ opWidth op ≤ 4) ∧
  ∀ s t : State, s.runState = .running → step s = .next t →
    (t.runState ≠ .faulted → t.pc.toNat = s.pc.toNat + ((s.mem.read s.pc.toNat).toNat / 64 + 1)) ∧
    (t.runState = .faulted → t.pc = s.pc)

/-- R87, R107, R174: Halted and Faulted keep the whole state, for any number of steps. -/
def Obligations.HaltedAndFaultedAreAbsorbing : Prop :=
  ∀ (s : State) (n : Nat), s.runState ≠ .running → Host.Core.run Sys2Proof.core n s = .next s

/-- R28: what the latch holds between steps is never read: a step of a Running core gives the same result whatever it
is. -/
def Obligations.LatchBetweenStepsIsNeverRead : Prop :=
  ∀ (s : State) (l : Latch), s.runState = .running → step { s with latch := l } = step s

/-- R162, R169: every step of the machine has a next state: no outcome `fault` or `refused` is ever answered (that a
fault of the spec is a next state is log 4). -/
def Obligations.EveryStepHasANextState : Prop :=
  ∀ s : State, ∃ t, step s = .next t

/-! ## The instructions -/

/-- R101: LDI, its encoding, its effect (and nothing else) for every register, R7 included, and its fault. -/
def Obligations.LdiLoadsTheImmediate : Prop :=
  ∀ (a imm : Byte) (s : State),
    (decode ⟨0x82, a, imm⟩ = .instr (.ldi a imm) ∧ encode (.ldi a imm) = [0x82, a, imm]) ∧
    (∀ ha : a.toNat < 8, exec (.ldi a imm) s = .next { s with
      regs := s.regs.set a.toNat imm, pc := s.pc + 3 }) ∧
    (8 ≤ a.toNat → exec (.ldi a imm) s = .next { s with
      runState := .faulted, faultCode := .outOfRangeRegister, faultInfo := a.setWidth 9 })

/-- R103: PRN appends the register to `out`, once, and changes nothing else. -/
def Obligations.PrnEmitsTheRegister : Prop :=
  ∀ (a b : Byte) (s : State),
    (decode ⟨0x47, a, b⟩ = .instr (.prn a) ∧ encode (.prn a) = [0x47, a]) ∧
    (∀ ha : a.toNat < 8, exec (.prn a) s = .next { s with
      out := s.out ++ [s.regs[a.toNat]], pc := s.pc + 2 }) ∧
    (∀ (ha : a.toNat < 8) (t : State), exec (.prn a) s = .next t → outPulse s t = some s.regs[a.toNat]) ∧
    (8 ≤ a.toNat → exec (.prn a) s = .next { s with
      runState := .faulted, faultCode := .outOfRangeRegister, faultInfo := a.setWidth 9 })

/-- R106: HLT halts, pc still moves by 1, nothing else changes, and nothing executes after it; its step faults only in
the fetch. -/
def Obligations.HltHalts : Prop :=
  ∀ (a b : Byte) (s : State),
    (decode ⟨0x01, a, b⟩ = .instr .hlt ∧ encode .hlt = [0x01]) ∧
    exec .hlt s = .next { s with runState := .halted, pc := s.pc + 1 } ∧
    (∀ (t : State) (n : Nat), exec .hlt s = .next t → Host.Core.run Sys2Proof.core n t = .next t) ∧
    (s.runState = .running → (s.pc = 254 ∨ s.pc = 255) →
      ∃ l n, step s = .next { s with
        runState := .faulted, faultCode := .outOfRangeMemory, faultInfo := 256, latch := l, draws := n })

/-- R124: POP loads the byte at SP, then increments SP; naming R7, the loaded byte is incremented. -/
def Obligations.PopLoadsThenIncrements : Prop :=
  ∀ (a b : Byte) (s : State),
    (decode ⟨0x46, a, b⟩ = .instr (.pop a) ∧ encode (.pop a) = [0x46, a]) ∧
    (∀ ha : a.toNat < 8, exec (.pop a) s = .next { s with
      regs := (s.regs.set a.toNat (s.mem.read s.regs[7].toNat)).set 7
        ((s.regs.set a.toNat (s.mem.read s.regs[7].toNat))[7] + 1),
      pc := s.pc + 2 }) ∧
    (8 ≤ a.toNat → exec (.pop a) s = .next { s with
      runState := .faulted, faultCode := .outOfRangeRegister, faultInfo := a.setWidth 9 })

/-- R125: PUSH decrements SP, then stores the register (read after the decrement) at the new SP; every other byte of
memory reads as before. -/
def Obligations.PushDecrementsThenStores : Prop :=
  ∀ (a b : Byte) (s : State),
    (decode ⟨0x45, a, b⟩ = .instr (.push a) ∧ encode (.push a) = [0x45, a]) ∧
    (∀ ha : a.toNat < 8, ∃ t, exec (.push a) s = .next t ∧
      t = { s with regs := s.regs.set 7 (s.regs[7] - 1), pc := s.pc + 2, mem := t.mem } ∧
      ∀ x, t.mem.read x = if x = (s.regs[7] - 1).toNat then (s.regs.set 7 (s.regs[7] - 1))[a.toNat]
        else s.mem.read x) ∧
    (8 ≤ a.toNat → exec (.push a) s = .next { s with
      runState := .faulted, faultCode := .outOfRangeRegister, faultInfo := a.setWidth 9 })

/-- R142: ADD. -/
def Obligations.AddAddsModulo256 : Prop :=
  ∀ (a b : Byte) (s : State),
    (decode ⟨0xA0, a, b⟩ = .instr (.add a b) ∧ encode (.add a b) = [0xA0, a, b]) ∧
    (∀ (ha : a.toNat < 8) (hb : b.toNat < 8), exec (.add a b) s = .next { s with
      regs := s.regs.set a.toNat (s.regs[a.toNat] + s.regs[b.toNat]), pc := s.pc + 3 }) ∧
    (8 ≤ a.toNat → exec (.add a b) s = .next { s with
      runState := .faulted, faultCode := .outOfRangeRegister, faultInfo := a.setWidth 9 }) ∧
    (a.toNat < 8 → 8 ≤ b.toNat → exec (.add a b) s = .next { s with
      runState := .faulted, faultCode := .outOfRangeRegister, faultInfo := b.setWidth 9 })

/-- R143: SUB. -/
def Obligations.SubSubtractsModulo256 : Prop :=
  ∀ (a b : Byte) (s : State),
    (decode ⟨0xA1, a, b⟩ = .instr (.sub a b) ∧ encode (.sub a b) = [0xA1, a, b]) ∧
    (∀ (ha : a.toNat < 8) (hb : b.toNat < 8), exec (.sub a b) s = .next { s with
      regs := s.regs.set a.toNat (s.regs[a.toNat] - s.regs[b.toNat]), pc := s.pc + 3 }) ∧
    (8 ≤ a.toNat → exec (.sub a b) s = .next { s with
      runState := .faulted, faultCode := .outOfRangeRegister, faultInfo := a.setWidth 9 }) ∧
    (a.toNat < 8 → 8 ≤ b.toNat → exec (.sub a b) s = .next { s with
      runState := .faulted, faultCode := .outOfRangeRegister, faultInfo := b.setWidth 9 })

/-- R144: MUL. -/
def Obligations.MulMultipliesModulo256 : Prop :=
  ∀ (a b : Byte) (s : State),
    (decode ⟨0xA2, a, b⟩ = .instr (.mul a b) ∧ encode (.mul a b) = [0xA2, a, b]) ∧
    (∀ (ha : a.toNat < 8) (hb : b.toNat < 8), exec (.mul a b) s = .next { s with
      regs := s.regs.set a.toNat (s.regs[a.toNat] * s.regs[b.toNat]), pc := s.pc + 3 }) ∧
    (8 ≤ a.toNat → exec (.mul a b) s = .next { s with
      runState := .faulted, faultCode := .outOfRangeRegister, faultInfo := a.setWidth 9 }) ∧
    (a.toNat < 8 → 8 ≤ b.toNat → exec (.mul a b) s = .next { s with
      runState := .faulted, faultCode := .outOfRangeRegister, faultInfo := b.setWidth 9 })

/-- R145: DIV, where the divisor is not 0, and its faults. -/
def Obligations.DivDividesOrFaults : Prop :=
  ∀ (a b : Byte) (s : State),
    (decode ⟨0xA3, a, b⟩ = .instr (.div a b) ∧ encode (.div a b) = [0xA3, a, b]) ∧
    (∀ (ha : a.toNat < 8) (hb : b.toNat < 8), s.regs[b.toNat] ≠ 0 → exec (.div a b) s = .next { s with
      regs := s.regs.set a.toNat (s.regs[a.toNat] / s.regs[b.toNat]), pc := s.pc + 3 }) ∧
    (∀ (_ : a.toNat < 8) (hb : b.toNat < 8), s.regs[b.toNat] = 0 → exec (.div a b) s = .next { s with
      runState := .faulted, faultCode := .divideByZero, faultInfo := b.setWidth 9 }) ∧
    (8 ≤ a.toNat → exec (.div a b) s = .next { s with
      runState := .faulted, faultCode := .outOfRangeRegister, faultInfo := a.setWidth 9 }) ∧
    (a.toNat < 8 → 8 ≤ b.toNat → exec (.div a b) s = .next { s with
      runState := .faulted, faultCode := .outOfRangeRegister, faultInfo := b.setWidth 9 })

/-- R141: the checks of the four ALU instructions, in order, and their frame: no register but R[a], no memory, no
output, no run state unless a fault. -/
def Obligations.AluInstructionsCheckThenWriteOneRegister : Prop :=
  ∀ mk ∈ [Instr.add, Instr.sub, Instr.mul, Instr.div], ∀ (a b : Byte) (s : State),
    (8 ≤ a.toNat → exec (mk a b) s = .next { s with
      runState := .faulted, faultCode := .outOfRangeRegister, faultInfo := a.setWidth 9 }) ∧
    (a.toNat < 8 → 8 ≤ b.toNat → exec (mk a b) s = .next { s with
      runState := .faulted, faultCode := .outOfRangeRegister, faultInfo := b.setWidth 9 }) ∧
    ∀ t, exec (mk a b) s = .next t →
      (∀ r : Fin 8, r.val ≠ a.toNat → t.regs[r.val] = s.regs[r.val]) ∧
      (∀ x, t.mem.read x = s.mem.read x) ∧ t.out = s.out ∧ t.diag = s.diag ∧ t.latch = s.latch ∧
      (t.runState ≠ .faulted →
        t.runState = s.runState ∧ t.faultCode = s.faultCode ∧ t.faultInfo = s.faultInfo)

/-- R146: the arithmetic laws, on the numbers the registers hold. -/
def Obligations.AluResultsAreExactModulo256 : Prop :=
  (∀ (a b : Byte) (s : State) (ha : a.toNat < 8) (hb : b.toNat < 8),
    (∃ t, exec (.add a b) s = .next t ∧
      t.regs[a.toNat].toNat = (s.regs[a.toNat].toNat + s.regs[b.toNat].toNat) % 256) ∧
    (∃ t, exec (.sub a b) s = .next t ∧
      t.regs[a.toNat].toNat = (s.regs[a.toNat].toNat + 256 - s.regs[b.toNat].toNat) % 256) ∧
    (∃ t, exec (.mul a b) s = .next t ∧
      t.regs[a.toNat].toNat = (s.regs[a.toNat].toNat * s.regs[b.toNat].toNat) % 256) ∧
    (s.regs[b.toNat] ≠ 0 → ∃ t, exec (.div a b) s = .next t ∧
      t.regs[a.toNat].toNat = s.regs[a.toNat].toNat / s.regs[b.toNat].toNat) ∧
    (s.regs[b.toNat] = 0 → ∃ t, exec (.div a b) s = .next t ∧
      t.runState = .faulted ∧ t.faultCode = .divideByZero)) ∧
  (∀ x y, aluResult .add x y = aluResult .add y x ∧ aluResult .mul x y = aluResult .mul y x) ∧
  (∃ x y, aluResult .sub x y ≠ aluResult .sub y x) ∧
  (∃ x y, x ≠ 0 ∧ y ≠ 0 ∧ aluResult .div x y ≠ aluResult .div y x)

/-- R147: both operands the same register. -/
def Obligations.SameRegisterAsBothAluOperands : Prop :=
  ∀ (a : Byte) (s : State) (ha : a.toNat < 8),
    exec (.add a a) s = .next { s with regs := s.regs.set a.toNat (2 * s.regs[a.toNat]), pc := s.pc + 3 } ∧
    exec (.sub a a) s = .next { s with regs := s.regs.set a.toNat 0, pc := s.pc + 3 } ∧
    exec (.mul a a) s = .next { s with
      regs := s.regs.set a.toNat (BitVec.ofNat 8 (s.regs[a.toNat].toNat ^ 2)), pc := s.pc + 3 } ∧
    (s.regs[a.toNat] ≠ 0 →
      exec (.div a a) s = .next { s with regs := s.regs.set a.toNat 1, pc := s.pc + 3 }) ∧
    (s.regs[a.toNat] = 0 → exec (.div a a) s = .next { s with
      runState := .faulted, faultCode := .divideByZero, faultInfo := a.setWidth 9 })

/-- R24, R66: an instruction with a register operand out of 0..7 (an ill-formed one) always faults with
OutOfRangeRegister, its info such an operand, and writes nothing else; a well-formed one never raises that fault. -/
def Obligations.RegisterOperandsOutOfRangeFault : Prop :=
  ∀ (i : Instr) (s : State),
    (i.wellFormed = false → ∃ operand ∈ i.operands, 8 ≤ operand.toNat ∧
      exec i s = .next { s with
        runState := .faulted, faultCode := .outOfRangeRegister, faultInfo := operand.setWidth 9 }) ∧
    (i.wellFormed = true → ∃ t, exec i s = .next t ∧
      (t.faultCode = .outOfRangeRegister → s.faultCode = .outOfRangeRegister))

/-! ## The stack -/

/-- R121: SP wraps both ways, and a stack access never raises OutOfRangeMemory. -/
def Obligations.StackPointerWraps : Prop :=
  ∀ (a : Byte) (s : State) (ha : a.toNat < 8),
    (∃ t, exec (.push a) s = .next t ∧ t.regs[7] = s.regs[7] - 1 ∧
      (s.regs[7] = 0 → t.regs[7] = 0xFF ∧ t.mem.read 255 = if a = 7 then 0xFF else s.regs[a.toNat])) ∧
    (∃ t, exec (.pop a) s = .next t ∧
      (a ≠ 7 → t.regs[7] = s.regs[7] + 1) ∧
      (s.regs[7] = 0xFF → a ≠ 7 → t.regs[7] = 0 ∧ t.regs[a.toNat] = s.mem.read 255)) ∧
    (s.faultCode ≠ .outOfRangeMemory →
      ∀ t, (exec (.push a) s = .next t ∨ exec (.pop a) s = .next t) → t.faultCode ≠ .outOfRangeMemory)

/-- R126: the stack laws. Pushing registers other than R7 and popping them in the opposite order restores SP for any
number of them, and every register for up to 256 (beyond which the stack has overwritten itself, R121, R122). -/
def Obligations.PushesThenPopsRestore : Prop :=
  (∀ (r : Byte) (s : State) (hr : r.toNat < 7), ∃ t, execAll [.push r, .pop r] s = .next t ∧
    t.regs = s.regs ∧ t.mem.read (s.regs[7] - 1).toNat = s.regs[r.toNat]) ∧
  ∀ (rs : List Byte) (s : State), (∀ r ∈ rs, r.toNat < 7) →
    ∃ t, execAll (rs.map .push) s = .next t ∧ t.regs[7] = s.regs[7] - BitVec.ofNat 8 rs.length ∧
      ∃ u, execAll (rs.reverse.map .pop) t = .next u ∧ u.regs[7] = s.regs[7] ∧
        (rs.length ≤ 256 → u.regs = s.regs)

/-- R53: a byte that PUSH writes is what the very next fetch reads at that address, and every other fetched byte is
as it was; the PUSH itself ran on the bytes fetched before its write. -/
def Obligations.PushIsSeenByTheNextFetch : Prop :=
  ∀ (s t : State) (l l' : Latch) (a : Byte) (ha : a.toNat < 8), s.runState = .running →
    fetch s = .ok l → decode l = .instr (.push a) → step s = .next t → fetch t = .ok l' →
    let addr := (s.regs[7] - 1).toNat
    let seen := fun x => if x = addr then (s.regs.set 7 (s.regs[7] - 1))[a.toNat] else s.mem.read x
    l' = ⟨seen (s.pc.toNat + 2), seen (s.pc.toNat + 3), seen (s.pc.toNat + 4)⟩

/-! ## Frames and whole-machine rules -/

/-- R20, R22, R24: which registers an instruction may change: its destination, and SP for POP and PUSH; every other
register is unchanged, in the forms that fault too. -/
def Obligations.OnlyDestinationRegistersChange : Prop :=
  ∀ (a b : Byte) (s t : State),
    ∀ p ∈ [(Instr.ldi a b, [a.toNat]), (.prn a, []), (.hlt, []), (.pop a, [a.toNat, 7]), (.push a, [7]),
        (.add a b, [a.toNat]), (.sub a b, [a.toNat]), (.mul a b, [a.toNat]), (.div a b, [a.toNat])],
      exec p.1 s = .next t → ∀ r : Fin 8, r.val ∉ p.2 → t.regs[r.val] = s.regs[r.val]

/-- R30, R42, R44, R162: the rest of every instruction's frame: memory changes only by PUSH and only at SP - 1 (the
address PUSH stores to), `out` only by PRN, the run state only by HLT or a fault, the fault status only by a fault;
`diag`, the latch and the model's `draws` never. -/
def Obligations.InstructionsChangeNothingElse : Prop :=
  ∀ (i : Instr) (s t : State), exec i s = .next t →
    t.diag = s.diag ∧ t.latch = s.latch ∧ t.draws = s.draws ∧
    ((∀ a, i ≠ .push a) → ∀ x, t.mem.read x = s.mem.read x) ∧
    ((∃ a, i = .push a) → ∀ x, x ≠ (s.regs[7] - 1).toNat → t.mem.read x = s.mem.read x) ∧
    ((∀ a, i ≠ .prn a) → t.out = s.out) ∧
    (t.runState = s.runState ∨ t.runState = .faulted ∨ (i = .hlt ∧ t.runState = .halted)) ∧
    ((t.faultCode = s.faultCode ∧ t.faultInfo = s.faultInfo) ∨ t.runState = .faulted)

/-- R42, R44: a step writes memory only if it executed a PUSH, and then at one address only. -/
def Obligations.OnlyPushWritesMemory : Prop :=
  ∀ s t : State, step s = .next t →
    t.mem = s.mem ∨
    ∃ l a, s.runState = .running ∧ fetch s = .ok l ∧ decode l = .instr (.push a) ∧ a.toNat < 8 ∧
      ∀ x, x ≠ (s.regs[7] - 1).toNat → t.mem.read x = s.mem.read x

/-- R33: `out` is empty at reset; a step that executes a PRN appends one byte to it, the register's value, and no
other step changes it. -/
def Obligations.OnlyPrnAppendsToTheOutput : Prop :=
  State.reset.out = [] ∧
  ∀ s t : State, step s = .next t →
    (∀ (l : Latch) (a : Byte) (ha : a.toNat < 8), s.runState = .running → fetch s = .ok l →
      decode l = .instr (.prn a) → t.out = s.out ++ [s.regs[a.toNat]]) ∧
    (t.out = s.out ∨ ∃ l a, s.runState = .running ∧ fetch s = .ok l ∧ decode l = .instr (.prn a) ∧ a.toNat < 8)

/-- R34: `diag` is empty at reset; a step that skips an unknown opcode appends the pair of the byte and its address,
and no other step changes it. -/
def Obligations.OnlyUnknownOpcodesAreReported : Prop :=
  State.reset.diag = [] ∧
  ∀ s t : State, step s = .next t →
    (s.runState = .running → s.pc.toNat ≤ 253 → kindOf (s.mem.read s.pc.toNat) = .unknown →
      t.diag = s.diag ++ [⟨s.mem.read s.pc.toNat, BitVec.ofNat 8 s.pc.toNat⟩]) ∧
    (t.diag = s.diag ∨
      (s.runState = .running ∧ s.pc.toNat ≤ 253 ∧ kindOf (s.mem.read s.pc.toNat) = .unknown))

/-- R26: the run state's encoding and its moves: from Running, an executed HLT and nothing else enters Halted, a fault
and nothing else enters Faulted; a step leaves neither, reset leaves both. -/
def Obligations.RunStateMoves : Prop :=
  (RunState.running.code = 0 ∧ RunState.halted.code = 1 ∧ RunState.faulted.code = 2) ∧
  (∀ s t : State, step s = .next t →
    (s.runState = .running → (t.runState = .halted ↔ ∃ l, fetch s = .ok l ∧ decode l = .instr .hlt)) ∧
    (s.runState = .running → (t.runState = .faulted ↔ (firstFault s).isSome = true)) ∧
    (s.runState ≠ .running → t.runState = s.runState)) ∧
  ∀ (sys : System) (inp : Inputs), inp.rst = true →
    ∃ sys', sys.tick inp = .next sys' ∧ sys'.core.runState = .running

/-- R166: UnsupportedOperation is never raised. -/
def Obligations.UnsupportedOperationIsNeverRaised : Prop :=
  ∀ s t : State, step s = .next t → t.faultCode = .unsupportedOperation → s.faultCode = .unsupportedOperation

/-- Two memories in canonical form that read the same at every address are the same data. The canonical form is the
model's own representation of the 256 cells (log 9); 20_memory.md speaks of the cells only. -/
def Obligations.CanonicalMemoriesThatReadAlikeAreEqual : Prop :=
  ∀ m n : Memory, m.wf → n.wf → (∀ a, m.read a = n.read a) → m = n

/-! ## Invariant, ends of runs -/

/-- R25, R27, R34, R40, R160: every step keeps the invariant, from every state that meets it. -/
def Obligations.EveryStepKeepsTheInvariant : Prop :=
  ∀ s t : State, s.Inv → step s = .next t → t.Inv

/-- The invariant holds at reset, with no image and with any. -/
def Obligations.ResetMeetsTheInvariant : Prop :=
  State.reset.Inv ∧ ∀ image : List Byte, (State.boot image).Inv

/-- R91: every run ends in Halted or Faulted within 255 steps, from every Running state (so for every image). -/
def Obligations.EveryRunEndsWithin255Steps : Prop :=
  ∀ s : State, ∃ t, EndsIn 255 s t

/-- R27, R90, R187: a run that ends normally shows no fault, and its HLT stood at an address of at most 253. -/
def Obligations.NormalEndsShowNoFault : Prop :=
  ∀ (n : Nat) (s t : State), s.Inv → EndsNormally n s t →
    t.faultCode.code = 0 ∧ t.faultInfo = 0 ∧ 1 ≤ t.pc.toNat ∧ t.pc.toNat ≤ 254

/-! ## The ports -/

/-- R185: the inspection port, once the core is Halted or Faulted. -/
def Obligations.InspectionPortReadsTheFinalState : Prop :=
  ∀ (s : State) (readNo : Nat) (addr : Byte), s.runState = .halted ∨ s.runState = .faulted →
    s.hstData readNo false addr = s.mem.read addr.toNat ∧
    s.hstData readNo true addr = s.regs[addr.toNat % 8]

/-- R184, R85: a pulse carries what a PRN or a skip of this very step appended, and a faulting step has none. -/
def Obligations.PulsesOnlyInStepsThatComplete : Prop :=
  ∀ s t : State, s.runState = .running → step s = .next t →
    (t.runState = .faulted → outPulse s t = none ∧ diagPulse s t = none) ∧
    (∀ v, outPulse s t = some v → t.out = s.out ++ [v] ∧ ∃ l a, fetch s = .ok l ∧ decode l = .instr (.prn a)) ∧
    (∀ d, diagPulse s t = some d → t.diag = s.diag ++ [d] ∧ ∃ l, fetch s = .ok l ∧ decode l = .unknown d.opcode)

/-- R160: the numbers of the fault codes, and the codes and infos a step of a Running core leaves on the status port:
0 and 0 unless it faults, and the table's range for each code if it does. The premises are facts of every Running state
a run reaches (R25, R27; `EveryStepKeepsTheInvariant`). -/
def Obligations.FaultCodesAndInfosOfTheTable : Prop :=
  (FaultCode.noFault.code = 0 ∧ FaultCode.outOfRangeMemory.code = 1 ∧ FaultCode.outOfRangeRegister.code = 2 ∧
    FaultCode.divideByZero.code = 3 ∧ FaultCode.unsupportedOperation.code = 4) ∧
  ∀ s t : State, s.runState = .running → s.pc.toNat ≤ 259 → s.faultCode = .noFault → s.faultInfo = 0 →
    step s = .next t →
    (t.runState ≠ .faulted → t.faultCode.code = 0 ∧ t.faultInfo = 0) ∧
    (t.runState = .faulted →
      (t.faultCode.code = 1 ∧ 256 ≤ t.faultInfo.toNat ∧ t.faultInfo.toNat ≤ 259) ∨
      (t.faultCode.code = 2 ∧ 8 ≤ t.faultInfo.toNat ∧ t.faultInfo.toNat ≤ 255) ∨
      (t.faultCode.code = 3 ∧ t.faultInfo.toNat ≤ 7))

/-- R104: the line shown for an output value is its unsigned decimal representation, without leading zeros. -/
def Obligations.OutputLinesAreUnsignedDecimal : Prop :=
  ∀ v : Byte, digitsValue decDigits (outLine v) = some v.toNat ∧
    (v ≠ 0 → (outLine v).head? ≠ some '0') ∧ (v = 0 → outLine v = ['0'])

/-! ## The load text -/

/-- R74, R186: a text of byte lines (eight binary digits, the most significant bit first, bare or with a comment after
a space), comment-only lines and blank lines, in any order and number, reads back as the bytes of its byte lines, which
alone take an address; a 257th byte line refuses it. -/
def Obligations.LoadTextReadsBack : Prop :=
  let digits := fun (v : Byte) => (List.range 8).map fun k => if v.getLsbD (7 - k) then '1' else '0'
  let line : Option Byte × Option (List Char) → List Char := fun row =>
    match row with
    | (some v, none)         => digits v
    | (some v, some comment) => digits v ++ ' ' :: '#' :: comment
    | (none, some comment)   => '#' :: comment
    | (none, none)           => []
  ∀ rows : List (Option Byte × Option (List Char)),
    let image := rows.filterMap (·.1)
    (image.length ≤ 256 → readImage (rows.map line) = .ok image) ∧
    (256 < image.length → readImage (rows.map line) = .error .imageTooLong)

/-! ## The observation of a run -/

/-- R28, R90: a run's observation does not depend on what the spec leaves unspecified or on what is the model's own:
two runs whose first states differ only in the latch and in `draws` (log 1) end after the same number of steps with the
same observation. -/
def Obligations.RunsDifferingInTheLatchObserveAlike : Prop :=
  ∀ (n : Nat) (s t : State) (l : Latch) (d : Nat), EndsIn n s t →
    ∃ t', EndsIn n { s with latch := l, draws := d } t' ∧ t'.observe = t.observe
end

