-- ==== Sys2Proof/Laws/Decode.lean ====
section
/-! SUPPORT. What the decoder's three outputs are, and what a decoded instruction says of its opcode byte. -/

namespace Sys2Proof

/-- The width as a number: `op[7:6] + 1`, in 1..4 (R61). -/
theorem opWidth_eq (op : Byte) : opWidth op = op.toNat / 64 + 1 := by
  simp only [opWidth, BitVec.toNat_ushiftRight, Nat.shiftRight_eq_div_pow, Nat.reducePow]

theorem opWidth_pos (op : Byte) : 1 ≤ opWidth op := by
  rw [opWidth_eq]
  omega

theorem opWidth_le (op : Byte) : opWidth op ≤ 4 := by
  have := op.isLt
  rw [opWidth_eq]
  omega

theorem opWidth_ldi : opWidth Opcode.ldi = 3 := by decide
theorem opWidth_prn : opWidth Opcode.prn = 2 := by decide
theorem opWidth_hlt : opWidth Opcode.hlt = 1 := by decide
theorem opWidth_pop : opWidth Opcode.pop = 2 := by decide
theorem opWidth_push : opWidth Opcode.push = 2 := by decide
theorem opWidth_add : opWidth Opcode.add = 3 := by decide
theorem opWidth_sub : opWidth Opcode.sub = 3 := by decide
theorem opWidth_mul : opWidth Opcode.mul = 3 := by decide
theorem opWidth_div : opWidth Opcode.div = 3 := by decide

/-- A known kind is that of one opcode byte only (R64). -/
theorem opcode_of_kindOf (op : Byte) :
    (kindOf op = .ldi → op = Opcode.ldi) ∧ (kindOf op = .prn → op = Opcode.prn) ∧
    (kindOf op = .hlt → op = Opcode.hlt) ∧ (kindOf op = .pop → op = Opcode.pop) ∧
    (kindOf op = .push → op = Opcode.push) ∧ (kindOf op = .add → op = Opcode.add) ∧
    (kindOf op = .sub → op = Opcode.sub) ∧ (kindOf op = .mul → op = Opcode.mul) ∧
    (kindOf op = .div → op = Opcode.div) := by
  revert op
  decide

/-- A decoded instruction has the latched opcode byte. -/
theorem opcode_of_decode {l : Latch} {i : Instr} (h : decode l = .instr i) : i.opcode = l.op := by
  obtain ⟨op, a, b⟩ := l
  have k := opcode_of_kindOf op
  unfold decode at h
  split at h <;> simp_all <;> subst h <;> rfl

/-- A decoded instruction has the width of the latched opcode byte. -/
theorem width_of_decode {l : Latch} {i : Instr} (h : decode l = .instr i) : i.width = opWidth l.op := by
  rw [Instr.width, opcode_of_decode h]

/-- An unknown opcode is named by its byte. -/
theorem decode_eq_unknown {l : Latch} {op : Byte} :
    decode l = .unknown op ↔ kindOf l.op = .unknown ∧ op = l.op := by
  unfold decode
  split <;> rename_i h <;> rw [h] <;> simp [eq_comm]

end Sys2Proof
end

