-- ==== Sys2Proof/Laws/Memory.lean ====
section
/-! SUPPORT. The laws of memory (20_memory.md R41, R42): a byte written is read back, every other byte reads as
before, and every operation keeps the canonical form. -/

namespace Sys2Proof.Machine

@[simp] theorem Memory.read_nil (a : Nat) : Memory.read [] a = 0 := rfl

@[simp] theorem Memory.read_cons (k : Nat) (v : Byte) (m : Memory) (a : Nat) :
    Memory.read ((k, v) :: m) a = if k = a then v else Memory.read m a := rfl

theorem Memory.read_insert (m : Memory) (a b : Nat) (v : Byte) :
    (m.insert a v).read b = if a = b then v else m.read b := by
  induction m with
  | nil => simp [Memory.insert, Memory.read, Memory.unlisted]
  | cons c m ih =>
    obtain ⟨k, w⟩ := c
    by_cases h₁ : a < k
    · simp [Memory.insert, h₁]
    · by_cases h₂ : a = k
      · subst h₂
        simp only [Memory.insert, Nat.lt_irrefl, if_false, if_true, Memory.read_cons]
        split <;> rfl
      · simp only [Memory.insert, h₁, h₂, if_false, Memory.read_cons, ih]
        by_cases hk : k = b
        · have : a ≠ b := fun h => h₂ (h.trans hk.symm)
          simp [hk, this]
        · simp [hk]

theorem Memory.read_erase (m : Memory) (a b : Nat) :
    Memory.read (m.filter (fun c => c.1 ≠ a)) b = if a = b then 0 else m.read b := by
  induction m with
  | nil => simp [Memory.read, Memory.unlisted]
  | cons c m ih =>
    obtain ⟨k, w⟩ := c
    simp only [List.filter_cons]
    by_cases hk : k = a
    · subst hk
      simp only [ne_eq, not_true, decide_false, Bool.false_eq_true, if_false, ih, Memory.read_cons]
      split <;> simp_all
    · simp only [ne_eq, hk, not_false_eq_true, decide_true, if_true, Memory.read_cons, ih]
      by_cases hb : k = b
      · have : a ≠ b := fun h => hk (hb.trans h.symm)
        simp [hb, this]
      · simp [hb]

/-- Everything a write does, as reads see it. -/
theorem Memory.read_write (m : Memory) (a b : Nat) (v : Byte) :
    (m.write a v).read b = if a = b then v else m.read b := by
  unfold Memory.write
  split
  · rename_i h
    rw [Memory.read_erase, h]
    rfl
  · exact Memory.read_insert m a b v

@[simp] theorem Memory.read_write_same (m : Memory) (a : Nat) (v : Byte) : (m.write a v).read a = v := by
  simp [Memory.read_write]

theorem Memory.read_write_other (m : Memory) {a b : Nat} (v : Byte) (h : a ≠ b) :
    (m.write a v).read b = m.read b := by
  simp [Memory.read_write, h]

theorem Memory.mem_insert {m : Memory} {a : Nat} {v : Byte} {c : Host.Cell} (h : c ∈ m.insert a v) :
    c = (a, v) ∨ c ∈ m := by
  induction m with
  | nil => simpa [Memory.insert] using h
  | cons d m ih =>
    obtain ⟨k, w⟩ := d
    simp only [Memory.insert] at h
    split at h
    · simpa using h
    · split at h
      · rcases List.mem_cons.1 h with h | h
        · exact .inl h
        · exact .inr (List.mem_cons_of_mem _ h)
      · rcases List.mem_cons.1 h with h | h
        · exact .inr (h ▸ List.mem_cons_self)
        · exact (ih h).imp id (List.mem_cons_of_mem _)

theorem Memory.insert_pairwise {m : Memory} (a : Nat) (v : Byte) (h : m.Pairwise (fun c d => c.1 < d.1)) :
    (m.insert a v).Pairwise (fun c d => c.1 < d.1) := by
  induction m with
  | nil => simp [Memory.insert]
  | cons d m ih =>
    obtain ⟨k, w⟩ := d
    obtain ⟨hk, hm⟩ := List.pairwise_cons.1 h
    simp only [Memory.insert]
    split
    · rename_i hlt
      refine List.pairwise_cons.2 ⟨?_, h⟩
      intro c hc
      rcases List.mem_cons.1 hc with rfl | hc
      · exact hlt
      · exact Nat.lt_trans hlt (hk c hc)
    · split
      · rename_i heq
        subst heq
        exact List.pairwise_cons.2 ⟨fun c hc => hk c hc, hm⟩
      · rename_i h₁ h₂
        refine List.pairwise_cons.2 ⟨?_, ih hm⟩
        intro c hc
        rcases Memory.mem_insert hc with rfl | hc
        · exact Nat.lt_of_le_of_ne (Nat.le_of_not_lt h₁) (Ne.symm h₂)
        · exact hk c hc

/-- A write at a cell's address keeps the canonical form. -/
theorem Memory.wf_write {m : Memory} {a : Nat} (v : Byte) (hm : m.wf) (ha : a < 256) : (m.write a v).wf := by
  unfold Memory.write
  split
  · exact ⟨hm.1.filter _, fun c hc => hm.2 c (List.mem_of_mem_filter hc)⟩
  · rename_i hv
    refine ⟨Memory.insert_pairwise a v hm.1, fun c hc => ?_⟩
    rcases Memory.mem_insert hc with rfl | hc
    · exact ⟨hv, ha⟩
    · exact hm.2 c hc

theorem Memory.wf_nil : Memory.wf [] := by decide

theorem Memory.wf_memWrite {s : State} (a v : Byte) (hm : s.mem.wf) : (s.memWrite a v).mem.wf :=
  Memory.wf_write v hm a.isLt

theorem Memory.wf_writeFrom {m : Memory} {a : Nat} {bs : List Byte} (hm : m.wf) (h : a + bs.length ≤ 256) :
    (m.writeFrom a bs).wf := by
  induction bs generalizing m a with
  | nil => exact hm
  | cons b bs ih =>
    simp only [List.length_cons] at h
    exact ih (Memory.wf_write b hm (by omega)) (by omega)

/-- Loading an image gives a canonical memory. -/
theorem Memory.wf_loadImage (image : List Byte) : (loadImage image).wf := by
  refine Memory.wf_writeFrom Memory.wf_nil ?_
  simp only [List.length_take, Config.memSize]
  omega

/-- Placing the bytes of an instruction keeps the canonical form. -/
theorem Memory.wf_placeLatch {m : Memory} (a : Nat) (l : Latch) (hm : m.wf) : (placeLatch m a l).wf := by
  have put {m : Memory} (k : Nat) (v : Byte) (hm : m.wf) :
      Memory.wf (if k > Config.addrMax then m else m.write k v) := by
    split
    · exact hm
    · rename_i h
      exact Memory.wf_write v hm (by simp only [Config.addrMax] at h; omega)
  exact put _ _ (put _ _ (put _ _ hm))

/-- What writing a list of bytes does, as reads see it. -/
theorem Memory.read_writeFrom (m : Memory) (a : Nat) (bs : List Byte) (x : Nat) :
    (m.writeFrom a bs).read x = if h : a ≤ x ∧ x - a < bs.length then bs[x - a]'h.2 else m.read x := by
  induction bs generalizing m a with
  | nil => simp [Memory.writeFrom]
  | cons b bs ih =>
    simp only [Memory.writeFrom, ih, Memory.read_write, List.length_cons]
    by_cases hx : a = x
    · subst hx
      simp
    · by_cases hlt : a + 1 ≤ x ∧ x - (a + 1) < bs.length
      · have h' : a ≤ x ∧ x - a < bs.length + 1 := by omega
        have e : x - a = (x - (a + 1)) + 1 := by omega
        simp [hlt, h', e]
      · have h' : ¬ (a ≤ x ∧ x - a < bs.length + 1) := by omega
        rw [dif_neg hlt, dif_neg h', if_neg hx]

end Sys2Proof.Machine
end

