-- ==== Sys2Proof/Laws/State.lean ====
section
/-! SUPPORT. One lemma for each field of State under each update of State: what the update puts there, or that it
leaves the field alone. -/

namespace Sys2Proof.Machine

variable (s : State)

/-! ### setReg -/

@[simp] theorem State.setReg_regs (i : Fin 8) (v : Byte) : (s.setReg i v).regs = s.regs.set i.val v := rfl
@[simp] theorem State.setReg_pc (i : Fin 8) (v : Byte) : (s.setReg i v).pc = s.pc := rfl
@[simp] theorem State.setReg_mem (i : Fin 8) (v : Byte) : (s.setReg i v).mem = s.mem := rfl
@[simp] theorem State.setReg_runState (i : Fin 8) (v : Byte) : (s.setReg i v).runState = s.runState := rfl
@[simp] theorem State.setReg_faultCode (i : Fin 8) (v : Byte) : (s.setReg i v).faultCode = s.faultCode := rfl
@[simp] theorem State.setReg_faultInfo (i : Fin 8) (v : Byte) : (s.setReg i v).faultInfo = s.faultInfo := rfl
@[simp] theorem State.setReg_latch (i : Fin 8) (v : Byte) : (s.setReg i v).latch = s.latch := rfl
@[simp] theorem State.setReg_out (i : Fin 8) (v : Byte) : (s.setReg i v).out = s.out := rfl
@[simp] theorem State.setReg_diag (i : Fin 8) (v : Byte) : (s.setReg i v).diag = s.diag := rfl
@[simp] theorem State.setReg_draws (i : Fin 8) (v : Byte) : (s.setReg i v).draws = s.draws := rfl

/-! ### setSp -/

@[simp] theorem State.setSp_regs (v : Byte) : (s.setSp v).regs = s.regs.set 7 v := rfl
@[simp] theorem State.setSp_pc (v : Byte) : (s.setSp v).pc = s.pc := rfl
@[simp] theorem State.setSp_mem (v : Byte) : (s.setSp v).mem = s.mem := rfl
@[simp] theorem State.setSp_runState (v : Byte) : (s.setSp v).runState = s.runState := rfl
@[simp] theorem State.setSp_faultCode (v : Byte) : (s.setSp v).faultCode = s.faultCode := rfl
@[simp] theorem State.setSp_faultInfo (v : Byte) : (s.setSp v).faultInfo = s.faultInfo := rfl
@[simp] theorem State.setSp_latch (v : Byte) : (s.setSp v).latch = s.latch := rfl
@[simp] theorem State.setSp_out (v : Byte) : (s.setSp v).out = s.out := rfl
@[simp] theorem State.setSp_diag (v : Byte) : (s.setSp v).diag = s.diag := rfl
@[simp] theorem State.setSp_draws (v : Byte) : (s.setSp v).draws = s.draws := rfl

/-! ### memWrite -/

@[simp] theorem State.memWrite_regs (a v : Byte) : (s.memWrite a v).regs = s.regs := rfl
@[simp] theorem State.memWrite_pc (a v : Byte) : (s.memWrite a v).pc = s.pc := rfl
@[simp] theorem State.memWrite_mem (a v : Byte) : (s.memWrite a v).mem = s.mem.write a.toNat v := rfl
@[simp] theorem State.memWrite_runState (a v : Byte) : (s.memWrite a v).runState = s.runState := rfl
@[simp] theorem State.memWrite_faultCode (a v : Byte) : (s.memWrite a v).faultCode = s.faultCode := rfl
@[simp] theorem State.memWrite_faultInfo (a v : Byte) : (s.memWrite a v).faultInfo = s.faultInfo := rfl
@[simp] theorem State.memWrite_latch (a v : Byte) : (s.memWrite a v).latch = s.latch := rfl
@[simp] theorem State.memWrite_out (a v : Byte) : (s.memWrite a v).out = s.out := rfl
@[simp] theorem State.memWrite_diag (a v : Byte) : (s.memWrite a v).diag = s.diag := rfl
@[simp] theorem State.memWrite_draws (a v : Byte) : (s.memWrite a v).draws = s.draws := rfl

/-! ### advance -/

@[simp] theorem State.advance_regs (w : Nat) : (s.advance w).regs = s.regs := rfl
@[simp] theorem State.advance_pc (w : Nat) : (s.advance w).pc = s.pc + BitVec.ofNat 9 w := rfl
@[simp] theorem State.advance_mem (w : Nat) : (s.advance w).mem = s.mem := rfl
@[simp] theorem State.advance_runState (w : Nat) : (s.advance w).runState = s.runState := rfl
@[simp] theorem State.advance_faultCode (w : Nat) : (s.advance w).faultCode = s.faultCode := rfl
@[simp] theorem State.advance_faultInfo (w : Nat) : (s.advance w).faultInfo = s.faultInfo := rfl
@[simp] theorem State.advance_latch (w : Nat) : (s.advance w).latch = s.latch := rfl
@[simp] theorem State.advance_out (w : Nat) : (s.advance w).out = s.out := rfl
@[simp] theorem State.advance_diag (w : Nat) : (s.advance w).diag = s.diag := rfl
@[simp] theorem State.advance_draws (w : Nat) : (s.advance w).draws = s.draws := rfl

/-! ### emitOut -/

@[simp] theorem State.emitOut_regs (v : Byte) : (s.emitOut v).regs = s.regs := rfl
@[simp] theorem State.emitOut_pc (v : Byte) : (s.emitOut v).pc = s.pc := rfl
@[simp] theorem State.emitOut_mem (v : Byte) : (s.emitOut v).mem = s.mem := rfl
@[simp] theorem State.emitOut_runState (v : Byte) : (s.emitOut v).runState = s.runState := rfl
@[simp] theorem State.emitOut_faultCode (v : Byte) : (s.emitOut v).faultCode = s.faultCode := rfl
@[simp] theorem State.emitOut_faultInfo (v : Byte) : (s.emitOut v).faultInfo = s.faultInfo := rfl
@[simp] theorem State.emitOut_latch (v : Byte) : (s.emitOut v).latch = s.latch := rfl
@[simp] theorem State.emitOut_out (v : Byte) : (s.emitOut v).out = s.out ++ [v] := rfl
@[simp] theorem State.emitOut_diag (v : Byte) : (s.emitOut v).diag = s.diag := rfl
@[simp] theorem State.emitOut_draws (v : Byte) : (s.emitOut v).draws = s.draws := rfl

/-! ### emitDiag -/

@[simp] theorem State.emitDiag_regs (op a : Byte) : (s.emitDiag op a).regs = s.regs := rfl
@[simp] theorem State.emitDiag_pc (op a : Byte) : (s.emitDiag op a).pc = s.pc := rfl
@[simp] theorem State.emitDiag_mem (op a : Byte) : (s.emitDiag op a).mem = s.mem := rfl
@[simp] theorem State.emitDiag_runState (op a : Byte) : (s.emitDiag op a).runState = s.runState := rfl
@[simp] theorem State.emitDiag_faultCode (op a : Byte) : (s.emitDiag op a).faultCode = s.faultCode := rfl
@[simp] theorem State.emitDiag_faultInfo (op a : Byte) : (s.emitDiag op a).faultInfo = s.faultInfo := rfl
@[simp] theorem State.emitDiag_latch (op a : Byte) : (s.emitDiag op a).latch = s.latch := rfl
@[simp] theorem State.emitDiag_out (op a : Byte) : (s.emitDiag op a).out = s.out := rfl
@[simp] theorem State.emitDiag_diag (op a : Byte) : (s.emitDiag op a).diag = s.diag ++ [⟨op, a⟩] := rfl
@[simp] theorem State.emitDiag_draws (op a : Byte) : (s.emitDiag op a).draws = s.draws := rfl

/-! ### halt -/

@[simp] theorem State.halt_regs : (s.halt).regs = s.regs := rfl
@[simp] theorem State.halt_pc : (s.halt).pc = s.pc := rfl
@[simp] theorem State.halt_mem : (s.halt).mem = s.mem := rfl
@[simp] theorem State.halt_runState : (s.halt).runState = .halted := rfl
@[simp] theorem State.halt_faultCode : (s.halt).faultCode = s.faultCode := rfl
@[simp] theorem State.halt_faultInfo : (s.halt).faultInfo = s.faultInfo := rfl
@[simp] theorem State.halt_latch : (s.halt).latch = s.latch := rfl
@[simp] theorem State.halt_out : (s.halt).out = s.out := rfl
@[simp] theorem State.halt_diag : (s.halt).diag = s.diag := rfl
@[simp] theorem State.halt_draws : (s.halt).draws = s.draws := rfl

/-! ### setLatch -/

@[simp] theorem State.setLatch_regs (l : Latch) : (s.setLatch l).regs = s.regs := rfl
@[simp] theorem State.setLatch_pc (l : Latch) : (s.setLatch l).pc = s.pc := rfl
@[simp] theorem State.setLatch_mem (l : Latch) : (s.setLatch l).mem = s.mem := rfl
@[simp] theorem State.setLatch_runState (l : Latch) : (s.setLatch l).runState = s.runState := rfl
@[simp] theorem State.setLatch_faultCode (l : Latch) : (s.setLatch l).faultCode = s.faultCode := rfl
@[simp] theorem State.setLatch_faultInfo (l : Latch) : (s.setLatch l).faultInfo = s.faultInfo := rfl
@[simp] theorem State.setLatch_latch (l : Latch) : (s.setLatch l).latch = l := rfl
@[simp] theorem State.setLatch_out (l : Latch) : (s.setLatch l).out = s.out := rfl
@[simp] theorem State.setLatch_diag (l : Latch) : (s.setLatch l).diag = s.diag := rfl
@[simp] theorem State.setLatch_draws (l : Latch) : (s.setLatch l).draws = s.draws := rfl

/-! ### dropLatch -/

@[simp] theorem State.dropLatch_regs : (s.dropLatch).regs = s.regs := rfl
@[simp] theorem State.dropLatch_pc : (s.dropLatch).pc = s.pc := rfl
@[simp] theorem State.dropLatch_mem : (s.dropLatch).mem = s.mem := rfl
@[simp] theorem State.dropLatch_runState : (s.dropLatch).runState = s.runState := rfl
@[simp] theorem State.dropLatch_faultCode : (s.dropLatch).faultCode = s.faultCode := rfl
@[simp] theorem State.dropLatch_faultInfo : (s.dropLatch).faultInfo = s.faultInfo := rfl
@[simp] theorem State.dropLatch_latch :
    (s.dropLatch).latch = ⟨(Config.latchBetweenSteps s.draws).1, (Config.latchBetweenSteps s.draws).2.1,
      (Config.latchBetweenSteps s.draws).2.2⟩ := rfl
@[simp] theorem State.dropLatch_out : (s.dropLatch).out = s.out := rfl
@[simp] theorem State.dropLatch_diag : (s.dropLatch).diag = s.diag := rfl
@[simp] theorem State.dropLatch_draws : (s.dropLatch).draws = s.draws + 1 := rfl

/-! ### enterFault -/

@[simp] theorem State.enterFault_regs (t : Trap) : (s.enterFault t).regs = s.regs := rfl
@[simp] theorem State.enterFault_pc (t : Trap) : (s.enterFault t).pc = s.pc := rfl
@[simp] theorem State.enterFault_mem (t : Trap) : (s.enterFault t).mem = s.mem := rfl
@[simp] theorem State.enterFault_runState (t : Trap) : (s.enterFault t).runState = .faulted := rfl
@[simp] theorem State.enterFault_faultCode (t : Trap) : (s.enterFault t).faultCode = t.code := rfl
@[simp] theorem State.enterFault_faultInfo (t : Trap) : (s.enterFault t).faultInfo = t.info := rfl
@[simp] theorem State.enterFault_latch (t : Trap) : (s.enterFault t).latch = s.latch := rfl
@[simp] theorem State.enterFault_out (t : Trap) : (s.enterFault t).out = s.out := rfl
@[simp] theorem State.enterFault_diag (t : Trap) : (s.enterFault t).diag = s.diag := rfl
@[simp] theorem State.enterFault_draws (t : Trap) : (s.enterFault t).draws = s.draws := rfl

/-! ### aluApply -/

@[simp] theorem State.aluApply_regs (op : AluOp) (i j : Fin 8) :
    (s.aluApply op i j).regs = s.regs.set i.val (aluResult op (s.reg i) (s.reg j)) := rfl
@[simp] theorem State.aluApply_pc (op : AluOp) (i j : Fin 8) : (s.aluApply op i j).pc = s.pc := rfl
@[simp] theorem State.aluApply_mem (op : AluOp) (i j : Fin 8) : (s.aluApply op i j).mem = s.mem := rfl
@[simp] theorem State.aluApply_runState (op : AluOp) (i j : Fin 8) : (s.aluApply op i j).runState = s.runState := rfl
@[simp] theorem State.aluApply_faultCode (op : AluOp) (i j : Fin 8) :
    (s.aluApply op i j).faultCode = s.faultCode := rfl
@[simp] theorem State.aluApply_faultInfo (op : AluOp) (i j : Fin 8) :
    (s.aluApply op i j).faultInfo = s.faultInfo := rfl
@[simp] theorem State.aluApply_latch (op : AluOp) (i j : Fin 8) : (s.aluApply op i j).latch = s.latch := rfl
@[simp] theorem State.aluApply_out (op : AluOp) (i j : Fin 8) : (s.aluApply op i j).out = s.out := rfl
@[simp] theorem State.aluApply_diag (op : AluOp) (i j : Fin 8) : (s.aluApply op i j).diag = s.diag := rfl
@[simp] theorem State.aluApply_draws (op : AluOp) (i j : Fin 8) : (s.aluApply op i j).draws = s.draws := rfl

/-! ### What a run's observation keeps of a state (R90) -/

@[simp] theorem State.observe_final : s.observe.final = s.arch := rfl
@[simp] theorem State.observe_out : s.observe.out = s.out := rfl
@[simp] theorem State.observe_diag : s.observe.diag = s.diag := rfl

/-- Neither the latch nor `draws` is observed. -/
theorem State.observe_of_latch_draws (l : Latch) (d : Nat) :
    State.observe { s with latch := l, draws := d } = s.observe := rfl

@[simp] theorem State.observe_setLatch (l : Latch) : (s.setLatch l).observe = s.observe := rfl
@[simp] theorem State.observe_dropLatch : (s.dropLatch).observe = s.observe := rfl

/-! ### Registers read back -/

theorem State.reg_def (i : Fin 8) : s.reg i = s.regs[i.val] := rfl

theorem State.sp_def : s.sp = s.regs[7] := rfl

@[simp] theorem State.reg_setReg_same (i : Fin 8) (v : Byte) : (s.setReg i v).reg i = v := by
  simp [State.reg]

theorem State.reg_setReg_other (i j : Fin 8) (v : Byte) (h : i ≠ j) : (s.setReg i v).reg j = s.reg j := by
  simp only [State.reg, State.setReg_regs]
  exact Vector.getElem_set_ne _ _ (fun hij => h (Fin.ext hij))

@[simp] theorem State.sp_setSp (v : Byte) : (s.setSp v).sp = v := State.reg_setReg_same s _ v

end Sys2Proof.Machine
end

