-- ==== Sys2Proof/Laws/Ops.lean ====
section
/-! SUPPORT. What each shared operation can do, said once: the operand check, the fetch, the end of a step, a step. -/

namespace Sys2Proof.Machine

/-! ### Operands (R24) -/

theorem regIndex?_of_lt {a : Byte} (h : a.toNat < 8) : regIndex? a = some ⟨a.toNat, h⟩ := by
  simp [regIndex?, h]

theorem regIndex?_of_ge {a : Byte} (h : 8 ≤ a.toNat) : regIndex? a = none := by
  simp [regIndex?, Nat.not_lt.2 h]

/-- An operand in range is the register it names. -/
theorem withRegister_of_lt {a : Byte} (h : a.toNat < 8) (s : State) (k : Fin 8 → Result) :
    withRegister a s k = k ⟨a.toNat, h⟩ := by
  simp [withRegister, regIndex?_of_lt h]

/-- An operand out of range is OutOfRangeRegister, with the operand as info. -/
theorem withRegister_of_ge {a : Byte} (h : 8 ≤ a.toNat) (s : State) (k : Fin 8 → Result) :
    withRegister a s k = .next (s.enterFault (.outOfRangeRegister a)) := by
  simp [withRegister, regIndex?_of_ge h, raise]

/-- All an operand check can do. -/
theorem withRegister_next {a : Byte} {s t : State} {k : Fin 8 → Result} (h : withRegister a s k = .next t) :
    (∃ ha : a.toNat < 8, k ⟨a.toNat, ha⟩ = .next t) ∨
    (8 ≤ a.toNat ∧ t = s.enterFault (.outOfRangeRegister a)) := by
  by_cases ha : a.toNat < 8
  · exact .inl ⟨ha, by rwa [withRegister_of_lt ha] at h⟩
  · rw [withRegister_of_ge (Nat.le_of_not_lt ha)] at h
    cases h
    exact .inr ⟨Nat.le_of_not_lt ha, rfl⟩

/-- All a check of two operands can do (R141). -/
theorem withRegisters_next {a b : Byte} {s t : State} {k : Fin 8 → Fin 8 → Result}
    (h : withRegisters a b s k = .next t) :
    (∃ (ha : a.toNat < 8) (hb : b.toNat < 8), k ⟨a.toNat, ha⟩ ⟨b.toNat, hb⟩ = .next t) ∨
    (8 ≤ a.toNat ∧ t = s.enterFault (.outOfRangeRegister a)) ∨
    (a.toNat < 8 ∧ 8 ≤ b.toNat ∧ t = s.enterFault (.outOfRangeRegister b)) := by
  rcases withRegister_next h with ⟨ha, h⟩ | ⟨ha, h⟩
  · rcases withRegister_next h with ⟨hb, h⟩ | ⟨hb, h⟩
    · exact .inl ⟨ha, hb, h⟩
    · exact .inr (.inr ⟨ha, hb, h⟩)
  · exact .inr (.inl ⟨ha, h⟩)

theorem withRegisters_of_lt {a b : Byte} (ha : a.toNat < 8) (hb : b.toNat < 8) (s : State)
    (k : Fin 8 → Fin 8 → Result) : withRegisters a b s k = k ⟨a.toNat, ha⟩ ⟨b.toNat, hb⟩ := by
  simp [withRegisters, withRegister_of_lt ha, withRegister_of_lt hb]

/-! ### The fetch (R81, R82) -/

theorem fetchByte_of_le {s : State} {a : Nat} (h : a ≤ 255) : fetchByte s a = .ok (s.mem.read a) := by
  simp only [fetchByte, Config.addrMax]
  exact if_neg (Nat.not_lt.2 h)

theorem fetchByte_of_gt {s : State} {a : Nat} (h : 255 < a) : fetchByte s a = .error (.outOfRangeMemory a) := by
  simp only [fetchByte, Config.addrMax]
  exact if_pos h

/-- A fetch from pc at most 253 gives the three bytes. -/
theorem fetch_of_le {s : State} (h : s.pc.toNat ≤ 253) :
    fetch s = .ok ⟨s.mem.read s.pc.toNat, s.mem.read (s.pc.toNat + 1), s.mem.read (s.pc.toNat + 2)⟩ := by
  simp [fetch, fetchByte_of_le (s := s) (a := s.pc.toNat) (by omega),
    fetchByte_of_le (s := s) (a := s.pc.toNat + 1) (by omega),
    fetchByte_of_le (s := s) (a := s.pc.toNat + 2) (by omega)]

/-- A fetch from pc at 254 or above raises OutOfRangeMemory for the first address above 255. -/
theorem fetch_of_ge {s : State} (h : 254 ≤ s.pc.toNat) :
    fetch s = .error (.outOfRangeMemory (max s.pc.toNat 256)) := by
  rcases Nat.lt_or_ge 255 s.pc.toNat with h₀ | h₀
  · simp [fetch, fetchByte_of_gt h₀, Nat.max_eq_left (Nat.succ_le_of_lt h₀)]
  · rcases (by omega : s.pc.toNat = 254 ∨ s.pc.toNat = 255) with e | e
    · simp [fetch, e, fetchByte_of_le (s := s) (a := 254) (by omega),
        fetchByte_of_le (s := s) (a := 255) (by omega), fetchByte_of_gt (s := s) (a := 256) (by omega)]
    · simp [fetch, e, fetchByte_of_le (s := s) (a := 255) (by omega),
        fetchByte_of_gt (s := s) (a := 256) (by omega)]

/-! ### The end of a step -/

@[simp] theorem finishStep_next (t : State) : finishStep (.next t) = .next t.dropLatch := rfl

theorem finishStep_eq_next {r : Result} {t : State} (h : finishStep r = .next t) :
    ∃ u, r = .next u ∧ t = u.dropLatch := by
  cases r <;> simp_all [finishStep]

/-! ### A step -/

theorem step_of_running {s : State} (h : s.runState = .running) : step s = runningStep s := by
  simp [step, engineStep, h]

theorem step_of_not_running {s : State} (h : s.runState ≠ .running) : step s = .next s := by
  unfold step engineStep
  split <;> simp_all

theorem runningStep_of_ge {s : State} (h : 254 ≤ s.pc.toNat) :
    runningStep s = .next (s.enterFault (.outOfRangeMemory (max s.pc.toNat 256))).dropLatch := by
  simp [runningStep, fetch_of_ge h, raise]

theorem runningStep_of_le {s : State} (h : s.pc.toNat ≤ 253) :
    runningStep s = finishStep (executeLatched (s.setLatch
      ⟨s.mem.read s.pc.toNat, s.mem.read (s.pc.toNat + 1), s.mem.read (s.pc.toNat + 2)⟩)) := by
  simp [runningStep, fetch_of_le h]

/-- All a step can do: keep a state that is not Running; fault in the fetch; execute an instruction; skip an unknown
opcode. -/
theorem step_cases {s t : State} (h : step s = .next t) :
    (s.runState ≠ .running ∧ t = s) ∨
    (s.runState = .running ∧ 254 ≤ s.pc.toNat ∧
      t = (s.enterFault (.outOfRangeMemory (max s.pc.toNat 256))).dropLatch) ∨
    (∃ l i u, s.runState = .running ∧ s.pc.toNat ≤ 253 ∧ fetch s = .ok l ∧ decode l = .instr i ∧
      exec i (s.setLatch l) = .next u ∧ t = u.dropLatch) ∨
    (∃ l op, s.runState = .running ∧ s.pc.toNat ≤ 253 ∧ fetch s = .ok l ∧ decode l = .unknown op ∧
      t = ((s.setLatch l).emitDiag op (s.pc.setWidth 8) |>.advance (opWidth op)).dropLatch) := by
  by_cases hr : s.runState = .running
  · rw [step_of_running hr] at h
    rcases Nat.lt_or_ge s.pc.toNat 254 with hp | hp
    · have hp' : s.pc.toNat ≤ 253 := by omega
      rw [runningStep_of_le hp'] at h
      obtain ⟨u, hu, rfl⟩ := finishStep_eq_next h
      rw [executeLatched] at hu
      split at hu
      · rename_i i hd
        exact .inr (.inr (.inl ⟨_, i, u, hr, hp', fetch_of_le hp', hd, hu, rfl⟩))
      · rename_i op hd
        simp only [skipUnknown] at hu
        cases hu
        exact .inr (.inr (.inr ⟨_, op, hr, hp', fetch_of_le hp', hd, rfl⟩))
    · rw [runningStep_of_ge hp] at h
      cases h
      exact .inr (.inl ⟨hr, hp, rfl⟩)
  · rw [step_of_not_running hr] at h
    cases h
    exact .inl ⟨hr, rfl⟩

end Sys2Proof.Machine
end

