-- ==== Sys2Proof/Laws/Exec.lean ====
section
/-! SUPPORT. All an instruction can do, said once (40_engine.md R80, R85, R88): it raises a fault, or it completes. -/

namespace Sys2Proof.Machine

/-! ### The ALU's results as the operations of bytes (R146) -/

theorem aluResult_add (x y : Byte) : aluResult .add x y = x + y := by
  simp [aluResult, BitVec.ofNat_add]

theorem aluResult_sub (x y : Byte) : aluResult .sub x y = x - y := by
  have := x.isLt
  have := y.isLt
  apply BitVec.eq_of_toNat_eq
  simp only [aluResult, BitVec.toNat_ofNat, BitVec.toNat_sub]
  omega

theorem aluResult_mul (x y : Byte) : aluResult .mul x y = x * y := by
  simp [aluResult, BitVec.ofNat_mul]

theorem aluResult_div (x y : Byte) : aluResult .div x y = x / y := by
  apply BitVec.eq_of_toNat_eq
  simp only [aluResult, BitVec.toNat_ofNat, BitVec.toNat_udiv]
  exact Nat.mod_eq_of_lt (Nat.lt_of_le_of_lt (Nat.div_le_self _ _) x.isLt)

/-! ### Completion -/

/-- What an instruction that raises no fault leaves: pc moved by its width, the fault status, the diagnostics, the latch
and the free values as they were, Halted after HLT, memory written by PUSH only, output appended by PRN only. -/
structure Completed (i : Instr) (s t : State) : Prop where
  pc        : t.pc = s.pc + BitVec.ofNat 9 i.width
  faultCode : t.faultCode = s.faultCode
  faultInfo : t.faultInfo = s.faultInfo
  diag      : t.diag = s.diag
  latch     : t.latch = s.latch
  draws     : t.draws = s.draws
  runState  : (i = .hlt ∧ t.runState = .halted) ∨ (i ≠ .hlt ∧ t.runState = s.runState)
  mem       : ((∀ a, i ≠ .push a) ∧ t.mem = s.mem) ∨
    ∃ a, ∃ ha : a.toNat < 8, i = .push a ∧
      t.mem = s.mem.write (s.regs[7] - 1).toNat (s.regs.set 7 (s.regs[7] - 1))[a.toNat]
  out       : ((∀ a, i ≠ .prn a) ∧ t.out = s.out) ∨
    ∃ a, ∃ ha : a.toNat < 8, i = .prn a ∧ t.out = s.out ++ [s.regs[a.toNat]]

/-- The traps an instruction can raise, with the ranges of their operands (R160, R161). -/
def Trap.ofInstr : Trap → Prop
  | .outOfRangeMemory _   => False
  | .outOfRangeRegister a => 8 ≤ a.toNat
  | .divideByZero b       => b.toNat < 8

/-- The completion of an instruction that writes registers only. -/
theorem Completed.regsOnly {i : Instr} {s : State} (r : Vector Byte 8) (hh : i ≠ .hlt) (hp : ∀ a, i ≠ .push a)
    (hn : ∀ a, i ≠ .prn a) :
    Completed i s { s with regs := r, pc := s.pc + BitVec.ofNat 9 i.width } :=
  ⟨rfl, rfl, rfl, rfl, rfl, rfl, .inr ⟨hh, rfl⟩, .inl ⟨hp, rfl⟩, .inl ⟨hn, rfl⟩⟩

/-- All an instruction can do: a fault of R161 and nothing else (never HLT), or completion. -/
theorem exec_next {i : Instr} {s t : State} (h : exec i s = .next t) :
    (∃ trap, trap.ofInstr ∧ i ≠ .hlt ∧ t = s.enterFault trap) ∨ Completed i s t := by
  cases i with
  | hlt =>
    cases h
    exact .inr ⟨rfl, rfl, rfl, rfl, rfl, rfl, .inl ⟨rfl, rfl⟩, .inl ⟨by simp, rfl⟩, .inl ⟨by simp, rfl⟩⟩
  | ldi a imm =>
    rcases withRegister_next h with ⟨ha, h⟩ | ⟨ha, rfl⟩
    · cases h
      exact .inr (.regsOnly _ (by simp) (by simp) (by simp))
    · exact .inl ⟨.outOfRangeRegister a, ha, by simp, rfl⟩
  | pop a =>
    rcases withRegister_next h with ⟨ha, h⟩ | ⟨ha, rfl⟩
    · cases h
      exact .inr (.regsOnly _ (by simp) (by simp) (by simp))
    · exact .inl ⟨.outOfRangeRegister a, ha, by simp, rfl⟩
  | prn a =>
    rcases withRegister_next h with ⟨ha, h⟩ | ⟨ha, rfl⟩
    · cases h
      exact .inr ⟨rfl, rfl, rfl, rfl, rfl, rfl, .inr ⟨by simp, rfl⟩, .inl ⟨by simp, rfl⟩, .inr ⟨a, ha, rfl, rfl⟩⟩
    · exact .inl ⟨.outOfRangeRegister a, ha, by simp, rfl⟩
  | push a =>
    rcases withRegister_next h with ⟨ha, h⟩ | ⟨ha, rfl⟩
    · cases h
      refine .inr ⟨rfl, rfl, rfl, rfl, rfl, rfl, .inr ⟨by simp, rfl⟩, .inr ⟨a, ha, rfl, ?_⟩, .inl ⟨by simp, rfl⟩⟩
      simp only [State.advance_mem, State.memWrite_mem, State.sp_setSp, State.setSp_mem]
      rfl
    · exact .inl ⟨.outOfRangeRegister a, ha, by simp, rfl⟩
  | add a b =>
    rcases withRegisters_next h with ⟨ha, hb, h⟩ | ⟨ha, rfl⟩ | ⟨ha, hb, rfl⟩
    · cases h
      exact .inr (.regsOnly _ (by simp) (by simp) (by simp))
    · exact .inl ⟨.outOfRangeRegister a, ha, by simp, rfl⟩
    · exact .inl ⟨.outOfRangeRegister b, hb, by simp, rfl⟩
  | sub a b =>
    rcases withRegisters_next h with ⟨ha, hb, h⟩ | ⟨ha, rfl⟩ | ⟨ha, hb, rfl⟩
    · cases h
      exact .inr (.regsOnly _ (by simp) (by simp) (by simp))
    · exact .inl ⟨.outOfRangeRegister a, ha, by simp, rfl⟩
    · exact .inl ⟨.outOfRangeRegister b, hb, by simp, rfl⟩
  | mul a b =>
    rcases withRegisters_next h with ⟨ha, hb, h⟩ | ⟨ha, rfl⟩ | ⟨ha, hb, rfl⟩
    · cases h
      exact .inr (.regsOnly _ (by simp) (by simp) (by simp))
    · exact .inl ⟨.outOfRangeRegister a, ha, by simp, rfl⟩
    · exact .inl ⟨.outOfRangeRegister b, hb, by simp, rfl⟩
  | div a b =>
    rcases withRegisters_next h with ⟨ha, hb, h⟩ | ⟨ha, rfl⟩ | ⟨ha, hb, rfl⟩
    · split at h
      · cases h
        exact .inl ⟨.divideByZero b, hb, by simp, rfl⟩
      · cases h
        exact .inr (.regsOnly _ (by simp) (by simp) (by simp))
    · exact .inl ⟨.outOfRangeRegister a, ha, by simp, rfl⟩
    · exact .inl ⟨.outOfRangeRegister b, hb, by simp, rfl⟩

end Sys2Proof.Machine
end

