-- ==== Sys2Proof/Laws/PerInstr.lean ====
section
/-! SUPPORT. Facts about instructions as syntax, one lemma per constructor. -/

/-- The encoding of an instruction has as many bytes as its width says (30_encoding.md R61, R70). -/
def Sys2Proof.Laws.EncodedWidth.Statement (i : Sys2Proof.Instr) : Prop :=
  (Sys2Proof.encode i).length = i.width

namespace Sys2Proof.Laws.EncodedWidth

theorem ldi (a imm : Byte) : Statement (.ldi a imm) := opWidth_ldi.symm
theorem prn (a : Byte) : Statement (.prn a) := opWidth_prn.symm
theorem hlt : Statement .hlt := opWidth_hlt.symm
theorem pop (a : Byte) : Statement (.pop a) := opWidth_pop.symm
theorem push (a : Byte) : Statement (.push a) := opWidth_push.symm
theorem add (a b : Byte) : Statement (.add a b) := opWidth_add.symm
theorem sub (a b : Byte) : Statement (.sub a b) := opWidth_sub.symm
theorem mul (a b : Byte) : Statement (.mul a b) := opWidth_mul.symm
theorem div (a b : Byte) : Statement (.div a b) := opWidth_div.symm

end Sys2Proof.Laws.EncodedWidth
end

