-- ==== Sys2Proof/Tests/Slice0.lean ====
section
/-! SUPPORT. The model's own tests. Expected results come from spec/ (95_test_vectors.md and the rules named), never
from the model. Then, for each statement of the certificates that has hypotheses, a witness that meets them. -/

open Sys2Proof Sys2Proof.Machine

namespace Sys2Proof.Tests

/-- The reset state with an image and register values. -/
def start (image : List Byte) (regs : Vector Byte 8 := State.reset.regs) : State := { State.boot image with regs := regs }

/-- A Running state with one byte at `a`, `a+1` and `a+2` and pc at `a`. -/
def startAt (a : Nat) (l : Latch) : State :=
  { State.reset with mem := placeLatch [] a l, pc := BitVec.ofNat 9 a }

/-- A property of the state one step gives. -/
def after (s : State) (p : State → Bool) : Bool :=
  match step s with
  | .next t => p t
  | .fault _ | .refused _ => false

/-- The step faults with this code and info, pc unmoved (R85). -/
def faults (s : State) (code : BitVec 3) (info : PcWord) : Bool :=
  after s fun t => t.runState == .faulted && t.faultCode.code == code && t.faultInfo == info && t.pc == s.pc &&
    t.regs == s.regs && t.mem == s.mem && t.out == s.out && t.diag == s.diag

/-! ### Well-formedness: one ill-formed term for each check (R24, R66) -/

theorem test_wf_ldi : (Instr.ldi 8 0).wellFormed = false := by decide
theorem test_wf_prn : (Instr.prn 8).wellFormed = false := by decide
theorem test_wf_pop : (Instr.pop 255).wellFormed = false := by decide
theorem test_wf_push : (Instr.push 8).wellFormed = false := by decide
theorem test_wf_add_a : (Instr.add 8 0).wellFormed = false := by decide
theorem test_wf_add_b : (Instr.add 0 8).wellFormed = false := by decide
theorem test_wf_sub_a : (Instr.sub 8 0).wellFormed = false := by decide
theorem test_wf_sub_b : (Instr.sub 0 8).wellFormed = false := by decide
theorem test_wf_mul_a : (Instr.mul 8 0).wellFormed = false := by decide
theorem test_wf_mul_b : (Instr.mul 0 8).wellFormed = false := by decide
theorem test_wf_div_a : (Instr.div 8 0).wellFormed = false := by decide
theorem test_wf_div_b : (Instr.div 0 8).wellFormed = false := by decide
theorem test_wf_accepts : (Instr.ldi 7 255).wellFormed = true ∧ Instr.hlt.wellFormed = true := by decide

/-! ### Decoding: each word bit by bit from R64's table -/

theorem test_decode_ldi : decode ⟨0b10000010, 0b00000000, 0b01000001⟩ = .instr (.ldi 0 65) := by decide
theorem test_decode_prn : decode ⟨0b01000111, 0b00000101, 0b11101110⟩ = .instr (.prn 5) := by decide
theorem test_decode_hlt : decode ⟨0b00000001, 0b11111111, 0b11111111⟩ = .instr .hlt := by decide
theorem test_decode_pop : decode ⟨0b01000110, 0b00000011, 0b00000000⟩ = .instr (.pop 3) := by decide
theorem test_decode_push : decode ⟨0b01000101, 0b00000010, 0b00000000⟩ = .instr (.push 2) := by decide
theorem test_decode_add : decode ⟨0b10100000, 0b00000001, 0b00000010⟩ = .instr (.add 1 2) := by decide
theorem test_decode_sub : decode ⟨0b10100001, 0b00000001, 0b00000010⟩ = .instr (.sub 1 2) := by decide
theorem test_decode_mul : decode ⟨0b10100010, 0b00000001, 0b00000010⟩ = .instr (.mul 1 2) := by decide
theorem test_decode_div : decode ⟨0b10100011, 0b00000001, 0b00000010⟩ = .instr (.div 1 2) := by decide
/-- 95_test_vectors.md, the decoder table: unknown opcodes with and without the ALU flag. -/
theorem test_decode_unknown :
    [0x00, 0x20, 0x3F, 0x48, 0x60, 0x80, 0xA4, 0xC0, 0xE3, 0xFF].map (fun op : Byte => (kindOf op, opWidth op, aluFlag op)) =
      [(.unknown, 1, false), (.unknown, 1, true), (.unknown, 1, true), (.unknown, 2, false), (.unknown, 2, true),
       (.unknown, 3, false), (.unknown, 3, true), (.unknown, 4, false), (.unknown, 4, true), (.unknown, 4, true)] := by
  decide
/-- The opcode table's numbering: byte 1 is bits 15..8, byte 2 bits 23..16; bits above `nbits` are 0. -/
theorem test_decodeTableWord :
    decodeTableWord 24 0x410082 = some (.ldi 0 65) ∧ decodeTableWord 8 0x4182 = some (.ldi 0 0) ∧
    decodeTableWord 8 0x20 = none := by decide
theorem test_withFetchWord : after (State.reset.withFetchWord 24 0x410382) (fun t => t.reg 3 == 65 && t.pc == 3) = true := by
  decide

/-! ### Instructions (95_test_vectors.md, part 2), one step each -/

theorem test_ldi_into_sp : after (start [0x82, 7, 0]) (fun t => t.reg 7 == 0 && t.pc == 3) = true := by decide
theorem test_ldi_bad_index : faults (start [0x82, 255, 1]) 2 255 = true := by decide
theorem test_prn_of_sp : after (start [0x47, 7, 0xEE]) (fun t => t.out == [244] && t.pc == 2) = true := by decide
theorem test_prn_bad_index : faults (start [0x47, 9]) 2 9 = true := by decide
theorem test_hlt_at_253 : after (startAt 253 ⟨1, 0, 0⟩) (fun t => t.runState == .halted && t.pc == 254) = true := by decide
theorem test_hlt_at_254 : faults (startAt 254 ⟨1, 0, 0⟩) 1 256 = true := by decide
theorem test_pop_wraps : after { start [0x46, 0] #v[0, 0, 0, 0, 0, 0, 0, 0xFF] with mem := (loadImage [0x46, 0]).write 0xFF 0x5A }
    (fun t => t.reg 0 == 0x5A && t.sp == 0) = true := by decide
theorem test_pop_r7 : after { start [0x46, 7] #v[0, 0, 0, 0, 0, 0, 0, 0xF3] with mem := (loadImage [0x46, 7]).write 0xF3 0x10 }
    (fun t => t.sp == 0x11) = true := by decide
theorem test_push_wraps : after (start [0x45, 0] #v[0x77, 0, 0, 0, 0, 0, 0, 0])
    (fun t => t.sp == 0xFF && t.mem.read 0xFF == 0x77) = true := by decide
theorem test_push_r7 : after (start [0x45, 7]) (fun t => t.sp == 0xF3 && t.mem.read 0xF3 == 0xF3) = true := by decide
theorem test_add_carry_out : after (start [0xA0, 0, 1] #v[255, 1, 0, 0, 0, 0, 0, 0]) (fun t => t.reg 0 == 0 && t.reg 1 == 1) = true := by
  decide
theorem test_add_bad_both : faults (start [0xA0, 9, 8]) 2 9 = true := by decide
theorem test_sub_wraps : after (start [0xA1, 0, 1] #v[2, 3, 0, 0, 0, 0, 0, 0]) (fun t => t.reg 0 == 255) = true := by decide
theorem test_sub_on_sp : after (start [0xA1, 7, 1] #v[0, 4, 0, 0, 0, 0, 0, 0xF4]) (fun t => t.reg 7 == 240) = true := by decide
theorem test_mul_low_byte : after (start [0xA2, 0, 1] #v[255, 255, 0, 0, 0, 0, 0, 0]) (fun t => t.reg 0 == 1) = true := by decide
theorem test_mul_same_register : after (start [0xA2, 0, 0] #v[15, 0, 0, 0, 0, 0, 0, 0]) (fun t => t.reg 0 == 225) = true := by decide
theorem test_div_truncates : after (start [0xA3, 0, 1] #v[7, 2, 0, 0, 0, 0, 0, 0]) (fun t => t.reg 0 == 3) = true := by decide
theorem test_div_checks_registers_first : faults (start [0xA3, 8, 1]) 2 8 = true ∧ faults (start [0xA3, 0, 1]) 3 1 = true := by decide

/-! ### The engine, the text forms, the ports -/

theorem test_unknown_width_4 : after (start [0xFF]) (fun t => t.diag == [⟨0xFF, 0⟩] && t.pc == 4 && t.runState == .running) = true := by
  decide
/-- Fault at pc = 257 with info 257 (95_test_vectors.md, "step at pc = 257"). -/
theorem test_fetch_257 : faults { State.reset with pc := 257 } 1 257 = true := by decide
/-- P1's load text and assembly (95_test_vectors.md): both give its image. -/
theorem test_load_text : readImage ["10000010 # LDI R0,8".toList, "00000000".toList, "# comment only".toList, "00001000".toList] =
    .ok [0x82, 0, 8] := by decide
theorem test_load_malformed : readImage ["00000001".toList, "LDI".toList] = .error (.malformedProgramLine 1) := by decide
theorem test_assemble_p1 : assemble ["LDI R0,8; LDI R1,9; MUL R0,R1; PRN R0; HLT".toList] =
    some [0x82, 0, 8, 0x82, 1, 9, 0xA2, 0, 1, 0x47, 0, 1] := by decide
/-- A label is the address of the next instruction (R72). -/
theorem test_assemble_label : assemble ["LDI R7,stack # SP".toList, "stack: HLT".toList] = some [0x82, 7, 3, 1] := by decide
/-- The three forms of an immediate (R72), and a hexadecimal digit in lower case (log 11). -/
theorem test_parseImm : ["65", "0x41", "0xfF", "0b01000001"].map (fun t => parseImm t.toList) =
    [some 65, some 65, some 255, some 65] ∧ parseImm "256".toList = none ∧ parseImm "0xG0".toList = none := by decide
theorem test_assemble_rejects : assemble ["LDI R8,1".toList] = none ∧ assemble ["CMP R0,R1".toList] = none := by decide
theorem test_out_line : outLine 255 = "255".toList ∧ outLine 0 = "0".toList := by decide

/-! ### Witnesses: each statement's hypotheses met, a clause at a boundary of its range -/

theorem witness_ResetLeavesTheSpecValues : (List.replicate 256 (0xFF : Byte)).length ≤ 256 :=
  Nat.le_of_eq List.length_replicate

/-- Entering reset without a strobe, and with one (to 255, an address other than 254); a strobe while reset lasts. -/
theorem witness_ResetRestoresFromAnyState :
    (Inputs.holdReset.rst = true ∧ (System.mk State.reset false).rstSeen = false ∧ Inputs.holdReset.ldWe = false) ∧
    ((Inputs.load 255 1).ldWe = true ∧ 254 ≠ (Inputs.load 255 1).ldAddr.toNat) ∧
    ((Inputs.load 255 1).rst = true ∧ (System.mk State.reset true).rstSeen = true) := by decide

theorem witness_LoadSequenceStartsTheProgram :
    ∃ (sys : System) (image : List Byte) (t : State), image.length ≤ 256 ∧ sys.rstSeen = false ∧
      sys.core.runState = .faulted ∧ step { State.boot image with draws := sys.core.draws } = .next t :=
  ⟨⟨State.reset.enterFault (.divideByZero 1), false⟩, [0x01], _, by decide, rfl, rfl, rfl⟩

theorem witness_LoadPortIgnoredWhileRunning :
    ∃ (sys : System) (inp : Inputs) (t : State), inp.rst = false ∧ inp.ldWe = true ∧ step sys.core = .next t :=
  ⟨⟨start [0x01], false⟩, ⟨false, true, 0, 0xFF, false, 0⟩, _, rfl, rfl, rfl⟩

theorem witness_AluFlagOpcodesOutsideTheTableAreUnknown :
    aluFlag 0xA4 = true ∧ (0xA4 : Byte) ∉ [0xA0, 0xA1, 0xA2, 0xA3] ∧ kindOf 0xA3 ≠ .unknown ∧
    (AluOp.div, Instr.div) ∈ [(AluOp.add, Instr.add), (.sub, .sub), (.mul, .mul), (.div, .div)] ∧
    (7 : Byte).toNat < 8 ∧ State.reset.regs[(7 : Byte).toNat] ≠ 0 :=
  ⟨by decide, by decide, by decide, by simp, by decide, by decide⟩

theorem witness_UnusedOperandBytesAreIgnored :
    kindOf 0x45 ∈ [.prn, .pop, .push] ∧ kindOf 0x01 ∈ [.hlt, .unknown] ∧ kindOf 0x00 ∈ [.hlt, .unknown] := by decide

theorem witness_DecodeOfEncodeIsTheInstruction :
    (startAt 253 ⟨0x82, 0, 0x2A⟩).pc.toNat ≤ 253 ∧
    ∀ (k : Nat) (hk : k < (encode (.ldi 0 0x2A)).length),
      (startAt 253 ⟨0x82, 0, 0x2A⟩).mem.read ((startAt 253 ⟨0x82, 0, 0x2A⟩).pc.toNat + k) = (encode (.ldi 0 0x2A))[k] := by
  decide

theorem witness_EncodeOfDecodeIsTheLatchedBytes : decode ⟨0xA3, 255, 255⟩ = .instr (.div 255 255) := by decide

theorem witness_AssemblyTextReadsBack : (Instr.div 7 7).wellFormed = true ∧ Instr.hlt.wellFormed = true := by decide

theorem witness_StepExecutesTheDecodedInstruction :
    ∃ (s : State) (l : Latch) (i : Instr), s.runState = .running ∧ s.pc = 253 ∧ fetch s = .ok l ∧ decode l = .instr i :=
  ⟨startAt 253 ⟨0x82, 0, 0x2A⟩, ⟨0x82, 0, 0x2A⟩, .ldi 0 0x2A, rfl, rfl, rfl, by decide⟩

theorem witness_FetchReadsThreeBytesOrFaults :
    ((startAt 253 ⟨1, 0, 0⟩).runState = .running ∧ (startAt 253 ⟨1, 0, 0⟩).pc.toNat ≤ 253) ∧
    254 ≤ (startAt 254 ⟨1, 0, 0⟩).pc.toNat ∧ 254 ≤ (startAt 256 ⟨1, 0, 0⟩).pc.toNat := by decide

theorem witness_StepRaisesTheFirstFaultPrecisely :
    firstFault (startAt 253 ⟨1, 0, 0⟩) = none ∧
    firstFault (startAt 254 ⟨1, 0, 0⟩) = some (.outOfRangeMemory 256) ∧
    firstFault (startAt 259 ⟨1, 0, 0⟩) = some (.outOfRangeMemory 259) ∧
    firstFault (start [0x82, 8, 9]) = some (.outOfRangeRegister 8) ∧
    firstFault (start [0xA3, 7, 8]) = some (.outOfRangeRegister 8) ∧
    firstFault (start [0xA3, 7, 0]) = some (.divideByZero 0) := by decide

theorem witness_UnknownOpcodesAreReportedAndSkipped :
    (startAt 253 ⟨0xFF, 0, 0⟩).runState = .running ∧ (startAt 253 ⟨0xFF, 0, 0⟩).pc.toNat ≤ 253 ∧
    kindOf ((startAt 253 ⟨0xFF, 0, 0⟩).mem.read (startAt 253 ⟨0xFF, 0, 0⟩).pc.toNat) = .unknown := by decide

theorem witness_PcAdvancesByTheWidth :
    (∃ t, step (startAt 253 ⟨0xFF, 0, 0⟩) = .next t ∧ t.runState ≠ .faulted ∧ t.pc = 257) ∧
    (∃ t, step (startAt 254 ⟨0xFF, 0, 0⟩) = .next t ∧ t.runState = .faulted) :=
  ⟨⟨_, rfl, by decide, by decide⟩, ⟨_, rfl, by decide⟩⟩

theorem witness_HaltedAndFaultedAreAbsorbing :
    State.reset.halt.runState ≠ .running ∧ (State.reset.enterFault (.divideByZero 1)).runState ≠ .running := by decide

theorem witness_LatchBetweenStepsIsNeverRead : State.reset.runState = .running := by decide

/-- The register-operand clauses of the nine instruction statements: 7 is in range, 8 is not. -/
theorem witness_register_operands : (7 : Byte).toNat < 8 ∧ 8 ≤ (8 : Byte).toNat := by decide

theorem witness_HltHalts :
    ((startAt 254 ⟨1, 0, 0⟩).runState = .running ∧ (startAt 254 ⟨1, 0, 0⟩).pc = 254) ∧
    ((startAt 255 ⟨1, 0, 0⟩).runState = .running ∧ (startAt 255 ⟨1, 0, 0⟩).pc = 255) ∧
    ∃ t, exec .hlt State.reset = .next t := ⟨by decide, by decide, _, rfl⟩

theorem witness_PrnEmitsTheRegister : ∃ t, exec (.prn 7) State.reset = .next t ∧ outPulse State.reset t = some 0xF4 :=
  ⟨_, rfl, by decide⟩

theorem witness_DivDividesOrFaults :
    State.reset.regs[(7 : Byte).toNat] ≠ 0 ∧ State.reset.regs[(0 : Byte).toNat] = 0 := by decide

theorem witness_AluInstructionsCheckThenWriteOneRegister :
    (∃ t, exec (.div 7 7) State.reset = .next t ∧ t.runState ≠ .faulted) ∧
    (∃ t, exec (.div 7 6) State.reset = .next t ∧ t.runState = .faulted) :=
  ⟨⟨_, rfl, by decide⟩, ⟨_, rfl, by decide⟩⟩

theorem witness_RegisterOperandsOutOfRangeFault :
    (Instr.add 7 8).wellFormed = false ∧ (Instr.add 7 7).wellFormed = true ∧
    State.reset.faultCode ≠ .outOfRangeRegister := by decide

theorem witness_StackPointerWraps :
    (start [] #v[9, 0, 0, 0, 0, 0, 0, 0]).regs[7] = 0 ∧ (start [] #v[9, 0, 0, 0, 0, 0, 0, 0xFF]).regs[7] = 0xFF ∧
    (6 : Byte) ≠ 7 ∧ State.reset.faultCode ≠ .outOfRangeMemory ∧ ∃ t, exec (.push 7) State.reset = .next t :=
  ⟨by decide, by decide, by decide, by decide, _, rfl⟩

theorem witness_PushesThenPopsRestore :
    (6 : Byte).toNat < 7 ∧ (∀ r ∈ List.replicate 256 (6 : Byte), r.toNat < 7) ∧
    (List.replicate 256 (6 : Byte)).length ≤ 256 := by
  refine ⟨by decide, fun r hr => ?_, Nat.le_of_eq List.length_replicate⟩
  rw [List.eq_of_mem_replicate hr]
  decide

/-- A PUSH onto the very next opcode, as in program P3 (95_test_vectors.md). -/
theorem witness_PushIsSeenByTheNextFetch :
    ∃ s t : State, ∃ l l' : Latch, (0 : Byte).toNat < 8 ∧ s.runState = .running ∧ fetch s = .ok l ∧
      decode l = .instr (.push 0) ∧ step s = .next t ∧ fetch t = .ok l' ∧ l'.op = 1 :=
  ⟨start [0x45, 0, 0x47] #v[1, 0, 0, 0, 0, 0, 0, 3], _, _, ⟨1, 0, 0⟩, by decide, rfl, rfl, by decide, rfl, rfl, rfl⟩

theorem witness_OnlyDestinationRegistersChange :
    (∃ t, exec (.pop 0) State.reset = .next t) ∧ (1 : Fin 8).val ∉ [(0 : Byte).toNat, 7] := ⟨⟨_, rfl⟩, by decide⟩

theorem witness_InstructionsChangeNothingElse :
    (∃ t, exec (.push 7) State.reset = .next t) ∧ (∃ t, exec (.prn 7) State.reset = .next t) ∧
    (∃ t, exec .hlt State.reset = .next t) ∧ (∃ t, exec (.ldi 7 0) State.reset = .next t) :=
  ⟨⟨_, rfl⟩, ⟨_, rfl⟩, ⟨_, rfl⟩, ⟨_, rfl⟩⟩

/-- Steps of each kind the whole-machine statements speak of: PUSH, PRN, unknown, HLT, a fault, a halted core. -/
theorem witness_steps_of_each_kind :
    after (start [0x45, 7]) (fun t => t.mem != (start [0x45, 7]).mem) = true ∧
    after (start [0x47, 7]) (fun t => t.out == [0xF4]) = true ∧
    after (start [0xFF]) (fun t => t.diag == [⟨0xFF, 0⟩]) = true ∧
    after (start [0x01]) (fun t => t.runState == .halted) = true ∧
    after (start [0x82, 8]) (fun t => t.runState == .faulted) = true ∧
    after State.reset.halt (fun t => t == State.reset.halt) = true := by decide

theorem witness_UnsupportedOperationIsNeverRaised :
    ∃ s t : State, step s = .next t ∧ t.faultCode = .unsupportedOperation :=
  ⟨{ State.reset with faultCode := .unsupportedOperation }, _, rfl, rfl⟩

theorem witness_CanonicalMemoriesThatReadAlikeAreEqual :
    Memory.wf [(0, 1), (255, 1)] ∧ ¬ Memory.wf [(0, 0)] ∧ ¬ Memory.wf [(1, 1), (0, 1)] ∧ ¬ Memory.wf [(256, 1)] := by decide

theorem witness_EveryStepKeepsTheInvariant : State.reset.Inv ∧ ∃ t, step State.reset = .next t :=
  ⟨⟨by decide, by decide, fun _ => ⟨rfl, rfl⟩, fun h => (nomatch h), fun h => (nomatch h), fun _ h => (nomatch h)⟩, _, rfl⟩

theorem witness_NormalEndsShowNoFault : State.reset.halt.runState = .halted ∧ ∃ t,
    State.Inv (start [0x01]) ∧ EndsNormally 1 (start [0x01]) t :=
  ⟨rfl, _, ⟨by decide, by decide, fun _ => ⟨rfl, rfl⟩, fun h => (nomatch h), fun h => (nomatch h), fun _ h => (nomatch h)⟩,
    ⟨rfl, by decide⟩, by decide⟩

theorem witness_InspectionPortReadsTheFinalState :
    State.reset.halt.hstData 0 true 0xFF = 0xF4 ∧
    (State.reset.enterFault (.divideByZero 1)).hstData 0 false 0xFF = 0 := by decide

theorem witness_PulsesOnlyInStepsThatComplete :
    after (start [0x47, 7]) (fun t => outPulse (start [0x47, 7]) t == some 0xF4) = true ∧
    after (start [0xFF]) (fun t => diagPulse (start [0xFF]) t == some ⟨0xFF, 0⟩) = true ∧
    after (start [0x82, 8]) (fun t => t.runState == .faulted) = true := by decide

theorem witness_FaultCodesAndInfosOfTheTable :
    (∃ s t : State, s.runState = .running ∧ s.pc.toNat ≤ 259 ∧ s.faultCode = .noFault ∧ s.faultInfo = 0 ∧
      step s = .next t ∧ t.runState = .faulted ∧ t.faultInfo = 259) ∧
    (∃ s t : State, s.runState = .running ∧ s.pc.toNat ≤ 259 ∧ s.faultCode = .noFault ∧ s.faultInfo = 0 ∧
      step s = .next t ∧ t.runState ≠ .faulted) :=
  ⟨⟨startAt 259 ⟨0, 0, 0⟩, _, rfl, by decide, rfl, rfl, rfl, by decide, by decide⟩,
   ⟨State.reset, _, rfl, by decide, rfl, rfl, rfl, by decide⟩⟩

theorem witness_RunStateMoves : Inputs.holdReset.rst = true ∧ State.reset.halt.runState ≠ .running ∧
    ∃ t, step (start [0x01]) = .next t ∧ t.runState = .halted := ⟨by decide, by decide, _, rfl, by decide⟩

theorem witness_OutputLinesAreUnsignedDecimal : (100 : Byte) ≠ 0 ∧ (0 : Byte) = 0 := by decide

/-- Texts of 256 and of 257 byte lines, with a blank and a comment-only line before them. -/
theorem witness_LoadTextReadsBack :
    let text := fun n => (none, none) :: (none, some ['x']) :: List.replicate n (some (0 : Byte), (none : Option (List Char)))
    ((text 256).filterMap (·.1)).length ≤ 256 ∧ 256 < ((text 257).filterMap (·.1)).length := by
  have h (n : Nat) : ((List.replicate n (some (0 : Byte), (none : Option (List Char)))).filterMap (·.1)).length = n := by
    simp
  exact ⟨Nat.le_of_eq (h 256), Nat.lt_of_lt_of_eq (by decide) (h 257).symm⟩

theorem witness_RunsDifferingInTheLatchObserveAlike : ∃ t, EndsIn 1 (start [0x01]) t := ⟨_, rfl, by decide⟩

end Sys2Proof.Tests
end

namespace Sys2Proof.Machine

/-! PROOFS. The state statements (10_state.md R24, R26, R33 to R35), after the facts they need: what memory an image
leaves, which fault an instruction raises, a step whose fetch and decoding are known, the table of R164. -/

/-! ### The state after reset and loading (R35, R186) -/

/-- Byte bi of an image stands at address i, and every other cell holds 0 (R186). -/
theorem Memory.read_loadImage {image : List Byte} (h : image.length ≤ 256) (a : Nat) :
    (loadImage image).read a = image.getD a 0 := by
  rw [loadImage, List.take_of_length_le h, Memory.read_writeFrom]
  by_cases ha : a < image.length <;> simp [ha]

theorem State.reset_regs : ∀ i : Fin 8, State.reset.regs[i.val] = if i = 7 then 0xF4 else 0 := by
  decide

/-! ### The fault an instruction raises (R161, R164) -/

/-- The fault of using an operand byte as a register index, if it is one (R24). -/
def regTrap? (operand : Byte) : Option Trap :=
  if 8 ≤ operand.toNat then some (.outOfRangeRegister operand) else none

/-- The fault of dividing by the register an operand byte names, if it is one (R145). -/
def divTrap? (regs : Vector Byte 8) (divisor : Byte) : Option Trap :=
  if regs.toList.getD divisor.toNat 0 = 0 then some (.divideByZero divisor) else none

/-- The fault an instruction raises with these register values, if any: the first of its checks, in R164's order. -/
def instrTrap? (regs : Vector Byte 8) : Instr → Option Trap
  | .hlt => none
  | .ldi a _ | .prn a | .pop a | .push a => regTrap? a
  | .add a b | .sub a b | .mul a b => (regTrap? a).or (regTrap? b)
  | .div a b => ((regTrap? a).or (regTrap? b)).or (divTrap? regs b)

/-! ### The checks one by one -/

theorem regTrap?_eq_none {a : Byte} : regTrap? a = none ↔ a.toNat < 8 := by
  simp [regTrap?]

theorem regTrap?_eq_some {a : Byte} {trap : Trap} :
    regTrap? a = some trap ↔ 8 ≤ a.toNat ∧ trap = .outOfRangeRegister a := by
  simp [regTrap?, eq_comm]

theorem divTrap?_of_lt (regs : Vector Byte 8) {b : Byte} (hb : b.toNat < 8) :
    divTrap? regs b = if regs[b.toNat] = 0 then some (.divideByZero b) else none := by
  simp [divTrap?, hb]

/-- A failing operand check raises its fault, whatever the instruction would do. -/
theorem withRegister_of_trap {a : Byte} {trap : Trap} (h : regTrap? a = some trap) (s : State)
    (k : Fin 8 → Result) : withRegister a s k = raise trap s := by
  obtain ⟨ha, rfl⟩ := regTrap?_eq_some.1 h
  exact withRegister_of_ge ha s k

/-- Of two failing operand checks, the first one's fault is raised (R141). -/
theorem withRegisters_of_trap {a b : Byte} {trap : Trap} (h : (regTrap? a).or (regTrap? b) = some trap) (s : State)
    (k : Fin 8 → Fin 8 → Result) : withRegisters a b s k = raise trap s := by
  rcases Option.or_eq_some_iff.1 h with ha | ⟨ha, hb⟩
  · exact withRegister_of_trap ha s _
  · rw [withRegisters, withRegister_of_lt (regTrap?_eq_none.1 ha)]
    exact withRegister_of_trap hb s _

/-! ### The instruction -/

/-- An instruction with a failing check raises that fault and does nothing else. -/
theorem exec_of_trap {i : Instr} {s : State} {trap : Trap} (h : instrTrap? s.regs i = some trap) :
    exec i s = raise trap s := by
  cases i with
  | hlt => cases h
  | ldi a | prn a | pop a | push a => exact withRegister_of_trap h s _
  | add a b | sub a b | mul a b => exact withRegisters_of_trap h s _
  | div a b =>
    rcases Option.or_eq_some_iff.1 h with h | ⟨hab, hz⟩
    · exact withRegisters_of_trap h s _
    · obtain ⟨ha, hb⟩ := Option.or_eq_none_iff.1 hab
      have hb := regTrap?_eq_none.1 hb
      rw [divTrap?_of_lt _ hb] at hz
      split at hz
      · rename_i hzero
        cases hz
        exact (withRegisters_of_lt (regTrap?_eq_none.1 ha) hb s _).trans (if_pos hzero)
      · cases hz

/-- An instruction whose checks all hold completes: it raises no fault. -/
theorem exec_of_no_trap {i : Instr} {s : State} (h : instrTrap? s.regs i = none) :
    ∃ t, exec i s = .next t ∧ t.faultCode = s.faultCode ∧ (t.runState = s.runState ∨ t.runState = .halted) := by
  cases i with
  | hlt => exact ⟨_, rfl, rfl, .inr rfl⟩
  | ldi a | prn a | pop a | push a =>
    exact ⟨_, withRegister_of_lt (regTrap?_eq_none.1 h) s _, rfl, .inl rfl⟩
  | add a b | sub a b | mul a b =>
    obtain ⟨ha, hb⟩ := Option.or_eq_none_iff.1 h
    exact ⟨_, withRegisters_of_lt (regTrap?_eq_none.1 ha) (regTrap?_eq_none.1 hb) s _, rfl, .inl rfl⟩
  | div a b =>
    obtain ⟨hab, hz⟩ := Option.or_eq_none_iff.1 h
    obtain ⟨ha, hb⟩ := Option.or_eq_none_iff.1 hab
    have hb := regTrap?_eq_none.1 hb
    have hne : s.regs[b.toNat] ≠ 0 := fun h0 => by simp [divTrap?_of_lt _ hb, h0] at hz
    exact ⟨_, (withRegisters_of_lt (regTrap?_eq_none.1 ha) hb s _).trans (if_neg hne), rfl, .inl rfl⟩

/-- From a state that is not Faulted, an instruction ends Faulted exactly when one of its checks fails. -/
theorem exec_faulted_iff {i : Instr} {s t : State} (hs : s.runState ≠ .faulted) (h : exec i s = .next t) :
    t.runState = .faulted ↔ (instrTrap? s.regs i).isSome = true := by
  cases htrap : instrTrap? s.regs i with
  | some trap =>
    rw [exec_of_trap htrap] at h
    cases h
    exact iff_of_true rfl rfl
  | none =>
    obtain ⟨u, hu, -, hrun⟩ := exec_of_no_trap htrap
    cases h.symm.trans hu
    rcases hrun with hrun | hrun <;> simp [hrun, hs]

/-! ### Well-formedness (R24, R66) -/

theorem isRegIndex_eq_true {a : Byte} : isRegIndex a = true ↔ regTrap? a = none := by
  rw [isRegIndex, decide_eq_true_iff, regTrap?_eq_none]

theorem isRegIndex_eq_false {a : Byte} : isRegIndex a = false ↔ regTrap? a = some (.outOfRangeRegister a) := by
  simp [isRegIndex, regTrap?]

/-- A failing check of two operands names one of them. -/
theorem regTraps_of_illFormed {a b : Byte} (h : (isRegIndex a && isRegIndex b) = false) :
    ∃ operand ∈ [a, b], 8 ≤ operand.toNat ∧ (regTrap? a).or (regTrap? b) = some (.outOfRangeRegister operand) := by
  cases ha : isRegIndex a with
  | false =>
    have ha := isRegIndex_eq_false.1 ha
    exact ⟨a, by simp, (regTrap?_eq_some.1 ha).1, by simp [ha]⟩
  | true =>
    have hb := isRegIndex_eq_false.1 (by simpa [ha] using h)
    exact ⟨b, by simp, (regTrap?_eq_some.1 hb).1, by simp [isRegIndex_eq_true.1 ha, hb]⟩

/-- An ill-formed instruction fails a check of one of its operands. -/
theorem instrTrap?_of_illFormed {i : Instr} (regs : Vector Byte 8) (h : i.wellFormed = false) :
    ∃ operand ∈ i.operands, 8 ≤ operand.toNat ∧ instrTrap? regs i = some (.outOfRangeRegister operand) := by
  cases i with
  | hlt => cases h
  | ldi a | prn a | pop a | push a =>
    have ha := isRegIndex_eq_false.1 h
    exact ⟨a, by simp [Instr.operands], (regTrap?_eq_some.1 ha).1, ha⟩
  | add a b | sub a b | mul a b => exact regTraps_of_illFormed h
  | div a b =>
    obtain ⟨operand, hmem, hge, htrap⟩ := regTraps_of_illFormed h
    exact ⟨operand, hmem, hge, by rw [instrTrap?, htrap, Option.some_or]⟩

/-- The only fault of a well-formed instruction is the division by zero. -/
theorem instrTrap?_of_wellFormed {i : Instr} {regs : Vector Byte 8} {trap : Trap} (h : i.wellFormed = true)
    (htrap : instrTrap? regs i = some trap) : ∃ divisor, trap = .divideByZero divisor := by
  cases i with
  | hlt => cases htrap
  | ldi a | prn a | pop a | push a =>
    rw [instrTrap?, isRegIndex_eq_true.1 h] at htrap
    cases htrap
  | add a b | sub a b | mul a b =>
    obtain ⟨ha, hb⟩ := Bool.and_eq_true_iff.1 h
    rw [instrTrap?, isRegIndex_eq_true.1 ha, isRegIndex_eq_true.1 hb] at htrap
    cases htrap
  | div a b =>
    obtain ⟨ha, hb⟩ := Bool.and_eq_true_iff.1 h
    rw [instrTrap?, isRegIndex_eq_true.1 ha, isRegIndex_eq_true.1 hb, Option.none_or, Option.none_or, divTrap?] at htrap
    split at htrap <;> cases htrap
    exact ⟨b, rfl⟩

/-! ### A step of a Running core whose fetch and decoding are known (R80, R83, R84) -/

theorem fetch_eq_ok {s : State} {l : Latch} : fetch s = .ok l ↔ s.pc.toNat ≤ 253 ∧
    l = ⟨s.mem.read s.pc.toNat, s.mem.read (s.pc.toNat + 1), s.mem.read (s.pc.toNat + 2)⟩ := by
  by_cases hpc : s.pc.toNat ≤ 253
  · simp [fetch_of_le hpc, hpc, eq_comm]
  · simp [fetch_of_ge (Nat.lt_of_not_le hpc), hpc]

section
variable {s t : State} {l : Latch} (hrun : s.runState = .running) (hfetch : fetch s = .ok l) (hstep : step s = .next t)
include hrun hfetch hstep

/-- A step on a known opcode executes the instruction. -/
theorem step_of_instr {i : Instr} (hdec : decode l = .instr i) :
    ∃ u, exec i (s.setLatch l) = .next u ∧ t = u.dropLatch := by
  simp only [step_of_running hrun, runningStep, hfetch, executeLatched, State.setLatch_latch, hdec] at hstep
  exact finishStep_eq_next hstep

/-- A step on an unknown opcode reports and skips it. -/
theorem step_of_unknown {op : Byte} (hdec : decode l = .unknown op) :
    t = ((s.setLatch l).emitDiag op (s.pc.setWidth 8) |>.advance (opWidth op)).dropLatch := by
  simp only [step_of_running hrun, runningStep, hfetch, executeLatched, State.setLatch_latch, hdec] at hstep
  obtain ⟨u, hu, rfl⟩ := finishStep_eq_next hstep
  cases hu
  rfl

end

/-! ### The first fault of a step, as R164's table gives it -/

/-- At pc 254 and above the first fault is the fetch's. -/
theorem firstFault_of_ge {s : State} (hpc : 254 ≤ s.pc.toNat) :
    firstFault s = some (.outOfRangeMemory (max s.pc.toNat 256)) := by
  rcases Nat.lt_or_ge 255 s.pc.toNat with h | h
  · simp [firstFault, faultConditions, h, Nat.max_eq_left (Nat.succ_le_of_lt h)]
  · rcases (by omega : s.pc.toNat = 254 ∨ s.pc.toNat = 255) with e | e <;> simp [firstFault, faultConditions, e]

/-- The first condition that holds, read off a table of conditions and faults row by row. -/
theorem firstHolding_cons (c : Bool) (trap : Trap) (rows : List (Bool × Trap)) :
    (((c, trap) :: rows).find? (·.1)).map (·.2) =
      (if c then some trap else none).or ((rows.find? (·.1)).map (·.2)) := by
  cases c <;> rfl

/-- After a fetch, the first fault is that of the operand checks which the opcode asks for, in order. -/
theorem firstFault_of_fetch {s : State} {l : Latch} (hfetch : fetch s = .ok l) :
    firstFault s = (if usesRegA l.op then regTrap? l.a else none).or
      ((if usesRegB l.op then regTrap? l.b else none).or
      (if kindOf l.op = .div then divTrap? s.regs l.b else none)) := by
  obtain ⟨hpc, rfl⟩ := fetch_eq_ok.1 hfetch
  have h0 : ¬ 255 < s.pc.toNat := by omega
  have h1 : ¬ 255 < s.pc.toNat + 1 := by omega
  have h2 : ¬ 255 < s.pc.toNat + 2 := by omega
  simp only [firstFault, faultConditions, firstHolding_cons, List.find?_nil]
  simp [h0, h1, h2, regTrap?, divTrap?, ite_and]

/-- After the fetch of an instruction, R164's table names the fault that the instruction raises. -/
theorem firstFault_of_instr {s : State} {l : Latch} {i : Instr} (hfetch : fetch s = .ok l)
    (hdec : decode l = .instr i) : firstFault s = instrTrap? s.regs i := by
  rw [firstFault_of_fetch hfetch]
  unfold decode at hdec
  split at hdec <;> rename_i hkind <;> cases hdec <;> simp [usesRegA, usesRegB, hkind, instrTrap?, Option.or_assoc]

/-- The skip of an unknown opcode raises no fault. -/
theorem firstFault_of_unknown {s : State} {l : Latch} {op : Byte} (hfetch : fetch s = .ok l)
    (hdec : decode l = .unknown op) : firstFault s = none := by
  rw [firstFault_of_fetch hfetch]
  simp [usesRegA, usesRegB, (decode_eq_unknown.1 hdec).1]

/-! ### The moves of the run state (R26) -/

/-- From Running, exactly an executed HLT enters Halted. -/
theorem step_halted_iff {s t : State} (hrun : s.runState = .running) (hstep : step s = .next t) :
    t.runState = .halted ↔ ∃ l, fetch s = .ok l ∧ decode l = .instr .hlt := by
  constructor
  · intro hhalt
    rcases step_cases hstep with ⟨hrun', -⟩ | ⟨-, -, rfl⟩ | ⟨l, i, u, -, -, hfetch, hdec, hu, rfl⟩ |
      ⟨l, op, -, -, -, -, rfl⟩
    · exact absurd hrun hrun'
    · cases hhalt
    · rcases exec_next hu with ⟨trap, -, -, rfl⟩ | hdone
      · cases hhalt
      · rcases hdone.runState with ⟨rfl, -⟩ | ⟨-, hkeep⟩
        · exact ⟨l, hfetch, hdec⟩
        · cases (hkeep.trans hrun).symm.trans hhalt
    · cases hrun.symm.trans hhalt
  · rintro ⟨l, hfetch, hdec⟩
    obtain ⟨u, hu, rfl⟩ := step_of_instr hrun hfetch hstep hdec
    cases hu
    rfl

/-- From Running, exactly a condition of R161 enters Faulted. -/
theorem step_faulted_iff {s t : State} (hrun : s.runState = .running) (hstep : step s = .next t) :
    t.runState = .faulted ↔ (firstFault s).isSome = true := by
  rcases step_cases hstep with ⟨hrun', -⟩ | ⟨-, hpc, rfl⟩ | ⟨l, i, u, -, -, hfetch, hdec, hu, rfl⟩ |
    ⟨l, op, -, -, hfetch, hdec, rfl⟩
  · exact absurd hrun hrun'
  · rw [firstFault_of_ge hpc]
    exact iff_of_true rfl rfl
  · rw [firstFault_of_instr hfetch hdec, State.dropLatch_runState]
    exact exec_faulted_iff (s := s.setLatch l) (by simp [hrun]) hu
  · rw [firstFault_of_unknown hfetch hdec]
    simp [hrun]

/-! ### The statements -/

/-- Settles O1: booting an image changes only the memory of the reset state. -/
theorem resetLeavesTheSpecValues : Obligations.ResetLeavesTheSpecValues :=
  ⟨rfl, fun _ hlen =>
    ⟨State.reset_regs, rfl, fun a _ => Memory.read_loadImage hlen a, rfl, rfl, rfl, rfl, rfl⟩⟩

/-- Settles O31: the first failing check of an ill-formed instruction is of a register operand, and the only check a
well-formed one can fail is of the divisor. -/
theorem registerOperandsOutOfRangeFault : Obligations.RegisterOperandsOutOfRangeFault := by
  intro i s
  constructor
  · intro hwf
    obtain ⟨operand, hmem, hge, htrap⟩ := instrTrap?_of_illFormed s.regs hwf
    exact ⟨operand, hmem, hge, exec_of_trap htrap⟩
  · intro hwf
    cases htrap : instrTrap? s.regs i with
    | some trap =>
      obtain ⟨divisor, rfl⟩ := instrTrap?_of_wellFormed hwf htrap
      exact ⟨_, exec_of_trap htrap, fun hcode => nomatch hcode⟩
    | none =>
      obtain ⟨t, ht, hcode, -⟩ := exec_of_no_trap htrap
      exact ⟨t, ht, fun h => hcode ▸ h⟩

/-- Settles O38: of all a step can do, only the completion of a PRN touches the output. -/
theorem onlyPrnAppendsToTheOutput : Obligations.OnlyPrnAppendsToTheOutput := by
  refine ⟨rfl, fun s t hstep => ⟨fun l a ha hrun hfetch hdec => ?_, ?_⟩⟩
  · obtain ⟨u, hu, rfl⟩ := step_of_instr hrun hfetch hstep hdec
    cases (withRegister_of_lt ha _ _).symm.trans hu
    rfl
  · rcases step_cases hstep with ⟨-, rfl⟩ | ⟨-, -, rfl⟩ | ⟨l, i, u, hrun, -, hfetch, hdec, hu, rfl⟩ |
      ⟨l, op, -, -, -, -, rfl⟩
    · exact .inl rfl
    · exact .inl rfl
    · rcases exec_next hu with ⟨trap, -, -, rfl⟩ | hdone
      · exact .inl rfl
      · rcases hdone.out with ⟨-, hout⟩ | ⟨a, ha, rfl, -⟩
        · exact .inl hout
        · exact .inr ⟨l, a, hrun, hfetch, hdec, ha⟩
    · exact .inl rfl

/-- Settles O39: of all a step can do, only the skip of an unknown opcode touches the diagnostics. -/
theorem onlyUnknownOpcodesAreReported : Obligations.OnlyUnknownOpcodesAreReported := by
  refine ⟨rfl, fun s t hstep => ⟨fun hrun hpc hkind => ?_, ?_⟩⟩
  · have hdiag := step_of_unknown hrun (fetch_of_le hpc) hstep (decode_eq_unknown.2 ⟨hkind, rfl⟩)
    rw [hdiag, BitVec.ofNat_toNat]
    rfl
  · rcases step_cases hstep with ⟨-, rfl⟩ | ⟨-, -, rfl⟩ | ⟨l, i, u, -, -, -, -, hu, rfl⟩ |
      ⟨l, op, hrun, hpc, hfetch, hdec, rfl⟩
    · exact .inl rfl
    · exact .inl rfl
    · rcases exec_next hu with ⟨trap, -, -, rfl⟩ | hdone
      · exact .inl rfl
      · exact .inl hdone.diag
    · obtain ⟨-, rfl⟩ := fetch_eq_ok.1 hfetch
      exact .inr ⟨hrun, hpc, (decode_eq_unknown.1 hdec).1⟩

/-- Settles O40: each move is read off what a step can do, and reset makes the core Running whatever it was. -/
theorem runStateMoves : Obligations.RunStateMoves := by
  refine ⟨⟨rfl, rfl, rfl⟩, fun s t hstep => ⟨fun hrun => step_halted_iff hrun hstep,
    fun hrun => step_faulted_iff hrun hstep, fun hrun => ?_⟩, fun sys inp hrst => ?_⟩
  · cases (step_of_not_running hrun).symm.trans hstep
    rfl
  · exact ⟨⟨sys.inReset inp, true⟩, by simp [System.tick, hrst], rfl⟩

end Sys2Proof.Machine

namespace Sys2Proof

/-! PROOFS. The encoding statements (30_encoding.md): decoding is the inverse of encoding on the latched bytes, what the
ALU selector selects, the skip of an unknown opcode, the pc, and the load text. -/

/-! ### Decoding is the inverse of encoding (R60, R64, R70) -/

/-- The operands of a decoded instruction are the operand bytes latched, as many as it uses. -/
theorem operands_of_decode {l : Latch} {i : Instr} (h : decode l = .instr i) : i.operands <+: [l.a, l.b] := by
  unfold decode at h
  split at h <;> cases h <;> simp [Instr.operands]

/-- Three latched bytes decode to an instruction exactly when they begin with its encoding. -/
theorem decode_eq_instr {l : Latch} {i : Instr} : decode l = .instr i ↔ encode i <+: [l.op, l.a, l.b] := by
  constructor
  · intro h
    exact List.cons_prefix_cons.2 ⟨opcode_of_decode h, operands_of_decode h⟩
  · obtain ⟨op, x, y⟩ := l
    intro h
    obtain ⟨rfl, hops⟩ := List.cons_prefix_cons.1 h
    cases i with
    | hlt => rfl
    | prn a | pop a | push a =>
      obtain ⟨rfl, -⟩ := List.cons_prefix_cons.1 hops
      rfl
    | ldi a b | add a b | sub a b | mul a b | div a b =>
      obtain ⟨rfl, hb⟩ := List.cons_prefix_cons.1 hops
      obtain ⟨rfl, -⟩ := List.cons_prefix_cons.1 hb
      rfl

/-- The encoding has as many bytes as the width says (R61, R70). -/
theorem length_encode (i : Instr) : (encode i).length = i.width := by
  cases i with
  | ldi a imm => exact Laws.EncodedWidth.ldi a imm
  | prn a => exact Laws.EncodedWidth.prn a
  | hlt => exact Laws.EncodedWidth.hlt
  | pop a => exact Laws.EncodedWidth.pop a
  | push a => exact Laws.EncodedWidth.push a
  | add a b => exact Laws.EncodedWidth.add a b
  | sub a b => exact Laws.EncodedWidth.sub a b
  | mul a b => exact Laws.EncodedWidth.mul a b
  | div a b => exact Laws.EncodedWidth.div a b

/-- Of the known opcodes, the four of the ALU have the ALU flag (R62, R69). -/
theorem aluFlag_of_known : ∀ op : Byte, kindOf op ≠ .unknown →
    (aluFlag op = true ↔ op ∈ [Opcode.add, Opcode.sub, Opcode.mul, Opcode.div]) := by
  decide

end Sys2Proof

namespace Sys2Proof.Machine

/-! ### What the ALU selector selects (R140) -/

/-- The instruction that applies an operation of the ALU. -/
def AluOp.instr : AluOp → Byte → Byte → Instr
  | .add => .add
  | .sub => .sub
  | .mul => .mul
  | .div => .div

/-- The opcode byte that stands for an operation of the ALU. -/
def AluOp.opcode : AluOp → Byte
  | .add => Opcode.add
  | .sub => Opcode.sub
  | .mul => Opcode.mul
  | .div => Opcode.div

theorem AluOp.encode_instr (p : AluOp) (a b : Byte) : encode (p.instr a b) = [p.opcode, a, b] := by
  cases p <;> rfl

/-- The selector selects an operation for that operation's opcode only. -/
theorem aluSelect_eq_some {op : Byte} {p : AluOp} : aluSelect op = some p ↔ p.opcode = op := by
  revert op
  cases p <;> decide

/-- The selector selects nothing but for the four opcodes of the ALU. -/
theorem aluSelect_isSome_iff {op : Byte} :
    (aluSelect op).isSome = true ↔ op ∈ [Opcode.add, Opcode.sub, Opcode.mul, Opcode.div] := by
  revert op
  decide

/-- The selector selects an operation exactly where the decoder gives that operation's instruction. -/
theorem aluSelect_iff_decode {p : AluOp} {op a b : Byte} :
    aluSelect op = some p ↔ decode ⟨op, a, b⟩ = .instr (p.instr a b) := by
  rw [aluSelect_eq_some, decode_eq_instr, AluOp.encode_instr, List.cons_prefix_cons]
  exact (and_iff_left (List.prefix_refl _)).symm

/-- An ALU instruction with operands in range, and no zero divisor, applies its operation and moves pc by 3. -/
theorem exec_aluInstr (p : AluOp) {a b : Byte} {s : State} (ha : a.toNat < 8) (hb : b.toNat < 8)
    (hz : p = .div → s.regs[b.toNat] ≠ 0) :
    exec (p.instr a b) s = .next { s with
      regs := s.regs.set a.toNat (aluResult p s.regs[a.toNat] s.regs[b.toNat]), pc := s.pc + 3 } := by
  cases p with
  | add | sub | mul => exact withRegisters_of_lt ha hb s _
  | div => exact (withRegisters_of_lt ha hb s _).trans (if_neg (hz rfl))

/-! ### The number of unknown opcodes (R68) -/

/-- Numbers below `m * n` are counted in `m` rows of `n`, so that no evaluation runs through all 256 bytes at once. -/
theorem length_filter_range_mul (p : Nat → Bool) (m n : Nat) :
    ((List.range (m * n)).filter p).length =
      ((List.range m).map fun w => ((List.range n).filter fun k => p (w * n + k)).length).sum := by
  induction m with
  | zero => simp
  | succ m ih =>
    rw [Nat.succ_mul, List.range_add, List.filter_append, List.length_append, List.filter_map, List.length_map, ih,
      List.range_succ, List.map_append, List.sum_append]
    simp [Function.comp_def]

theorem unknownOpcodes_count :
    ((List.range 256).filter fun n => kindOf (BitVec.ofNat 8 n) = .unknown).length = 247 := by
  rw [length_filter_range_mul _ 4 64]
  decide

theorem unknownOpcodes_count_by_width :
    ([1, 2, 3, 4].map fun w => ((List.range 256).filter fun n =>
      kindOf (BitVec.ofNat 8 n) = .unknown ∧ opWidth (BitVec.ofNat 8 n) = w).length) = [63, 61, 59, 64] := by
  simp only [length_filter_range_mul _ 4 64]
  decide

/-! ### The skip of an unknown opcode, and the pc (R86, R88) -/

/-- A step on an unknown opcode has a next state: reported with its address, pc moved by the width of the byte. -/
theorem step_of_unknownOpcode {s : State} (hrun : s.runState = .running) (hpc : s.pc.toNat ≤ 253)
    (hkind : kindOf (s.mem.read s.pc.toNat) = .unknown) :
    ∃ l, step s = .next ((s.setLatch l).emitDiag (s.mem.read s.pc.toNat) (s.pc.setWidth 8) |>.advance
      (opWidth (s.mem.read s.pc.toNat))).dropLatch := by
  refine ⟨⟨s.mem.read s.pc.toNat, s.mem.read (s.pc.toNat + 1), s.mem.read (s.pc.toNat + 2)⟩, ?_⟩
  rw [step_of_running hrun, runningStep_of_le hpc, executeLatched, State.setLatch_latch,
    decode_eq_unknown.2 ⟨hkind, rfl⟩]
  rfl

/-- The diagnostic pulse of a step that appends one entry is that entry (R184). -/
theorem diagPulse_of_append {s t : State} {d : DiagEntry} (h : t.diag = s.diag ++ [d]) :
    diagPulse s t = some d := by
  simp [diagPulse, h]

/-- From an address at which a fetch succeeds, adding a width does not wrap (R25, R88). -/
theorem toNat_pc_add_width {pc : PcWord} {width : Nat} (hpc : pc.toNat ≤ 253) (hwidth : width ≤ 4) :
    (pc + BitVec.ofNat 9 width).toNat = pc.toNat + width := by
  rw [BitVec.toNat_add, BitVec.toNat_ofNat]
  omega

/-- An instruction that completes from a state that is not Faulted does not leave it Faulted. -/
theorem Completed.not_faulted {i : Instr} {s t : State} (hdone : Completed i s t) (hs : s.runState ≠ .faulted) :
    t.runState ≠ .faulted := by
  rcases hdone.runState with ⟨-, hrun⟩ | ⟨-, hrun⟩ <;> simp [hrun, hs]

/-- A step of a Running core faults and keeps pc, or does not fault and moves pc by the width of the fetched opcode. -/
theorem step_pc {s t : State} (hrun : s.runState = .running) (hstep : step s = .next t) :
    (t.runState = .faulted ∧ t.pc = s.pc) ∨
    (t.runState ≠ .faulted ∧ t.pc.toNat = s.pc.toNat + opWidth (s.mem.read s.pc.toNat)) := by
  rcases step_cases hstep with ⟨hrun', -⟩ | ⟨-, -, rfl⟩ | ⟨l, i, u, -, hpc, hfetch, hdec, hu, rfl⟩ |
    ⟨l, op, -, hpc, hfetch, hdec, rfl⟩
  · exact absurd hrun hrun'
  · exact .inl ⟨rfl, rfl⟩
  · rcases exec_next hu with ⟨trap, -, -, rfl⟩ | hdone
    · exact .inl ⟨rfl, rfl⟩
    · obtain ⟨-, rfl⟩ := fetch_eq_ok.1 hfetch
      refine .inr ⟨hdone.not_faulted (by simp [hrun]), ?_⟩
      rw [State.dropLatch_pc, hdone.pc, width_of_decode hdec]
      exact toNat_pc_add_width hpc (opWidth_le _)
  · obtain ⟨-, rfl⟩ := fetch_eq_ok.1 hfetch
    obtain ⟨-, rfl⟩ := decode_eq_unknown.1 hdec
    exact .inr ⟨by simp [hrun], toNat_pc_add_width hpc (opWidth_le _)⟩

/-! ### The load text (R74, R186) -/

/-- A byte as eight binary digits, the most significant first. -/
def byteDigits (v : Byte) : List Char :=
  (List.range 8).map fun k => if v.getLsbD (7 - k) then '1' else '0'

/-- A line of load text: a byte or none, and a comment or none. -/
def loadLine : Option Byte × Option (List Char) → List Char
  | (some v, none)         => byteDigits v
  | (some v, some comment) => byteDigits v ++ ' ' :: '#' :: comment
  | (none, some comment)   => '#' :: comment
  | (none, none)           => []

theorem mem_byteDigits {v : Byte} {c : Char} (h : c ∈ byteDigits v) : c = '0' ∨ c = '1' := by
  obtain ⟨k, -, rfl⟩ := List.mem_map.1 h
  split <;> simp

/-- Reading the low `n` bits of a number, the most significant first, gives them back as a number. -/
theorem foldl_bits (n x : Nat) :
    ((List.range n).map fun k => (x.testBit (n - 1 - k)).toNat).foldl (fun m d => 2 * m + d) 0 = x % 2 ^ n := by
  induction n generalizing x with
  | zero => simp [Nat.mod_one]
  | succ n ih =>
    have hshift : ((List.range n).map fun k => (x.testBit (n - k)).toNat) =
        (List.range n).map fun k => ((x / 2).testBit (n - 1 - k)).toNat := by
      refine List.map_congr_left fun k hk => ?_
      have hk := List.mem_range.1 hk
      rw [← Nat.testBit_succ, show (n - 1 - k).succ = n - k by omega]
    rw [List.range_succ, List.map_append, List.foldl_append, Nat.add_sub_cancel, hshift, ih, Nat.pow_succ',
      Nat.mod_mul]
    simp [Nat.toNat_testBit, Nat.add_comm]

/-- Eight binary digits read as the byte they write. -/
theorem digitsValue_byteDigits (v : Byte) : digitsValue binDigits (byteDigits v) = some v.toNat := by
  have hdigit (b : Bool) : binDigits.idxOf? (if b then '1' else '0') = some b.toNat := by
    cases b <;> rfl
  have hvalues : (byteDigits v).mapM (fun c => binDigits.idxOf? c) =
      some ((List.range 8).map fun k => (v.toNat.testBit (8 - 1 - k)).toNat) := by
    rw [byteDigits, List.mapM_map]
    simp only [Function.comp_def, hdigit, BitVec.testBit_toNat]
    exact List.mapM_pure
  have hne : byteDigits v ≠ [] := List.cons_ne_nil _ _
  rw [digitsValue, if_neg hne, hvalues, Option.map_some]
  exact congrArg some ((foldl_bits 8 v.toNat).trans (Nat.mod_eq_of_lt v.isLt))

/-- White space after characters that are none is trimmed. -/
theorem trimBlank_append {cs blanks : List Char} (hne : cs ≠ []) (hcs : ∀ c ∈ cs, isBlank c = false)
    (hblanks : ∀ c ∈ blanks, isBlank c = true) : trimBlank (cs ++ blanks) = cs := by
  have hfront : (cs ++ blanks).dropWhile isBlank = cs ++ blanks := by
    obtain ⟨c, cs, rfl⟩ := List.exists_cons_of_ne_nil hne
    simp [hcs c]
  have hback : (cs ++ blanks).reverse.dropWhile isBlank = cs.reverse := by
    rw [List.reverse_append, List.dropWhile_append_of_pos (by simpa using hblanks), List.dropWhile_eq_self_iff]
    intro hlen
    exact Bool.eq_false_iff.1 (hcs _ (List.mem_reverse.1 (List.getElem_mem hlen)))
  rw [trimBlank, hfront, hback, List.reverse_reverse]

/-- A byte, then nothing but white space and a comment, has the byte's digits as its body. -/
theorem lineBody_byteDigits_append (v : Byte) {rest : List Char}
    (hrest : ∀ c ∈ rest.takeWhile (· ≠ '#'), isBlank c = true) : lineBody (byteDigits v ++ rest) = byteDigits v := by
  have hhash : ∀ c ∈ byteDigits v, decide (c ≠ '#') = true := by
    intro c hc
    rcases mem_byteDigits hc with rfl | rfl <;> rfl
  have hblank : ∀ c ∈ byteDigits v, isBlank c = false := by
    intro c hc
    rcases mem_byteDigits hc with rfl | rfl <;> rfl
  rw [lineBody, List.takeWhile_append_of_pos hhash]
  exact trimBlank_append (List.cons_ne_nil _ _) hblank hrest

/-- A line whose body is the digits of a byte stands for that byte. -/
theorem readLine_of_byteDigits {l : List Char} {v : Byte} (h : lineBody l = byteDigits v) : readLine l = .byte v := by
  have hle : v.toNat ≤ 255 := Nat.le_of_lt_succ v.isLt
  unfold readLine
  split
  · rename_i hnil
    exact absurd (h.symm.trans hnil) (List.cons_ne_nil _ _)
  · rw [h, digitsValue_byteDigits]
    simp [hle]

/-- A line is read as its byte; one without a byte takes no address. -/
theorem readLine_loadLine (row : Option Byte × Option (List Char)) :
    readLine (loadLine row) = row.1.elim .skip .byte := by
  obtain ⟨_ | v, _ | comment⟩ := row
  · rfl
  · rfl
  · refine readLine_of_byteDigits ?_
    simpa [loadLine] using lineBody_byteDigits_append v (rest := []) (by simp)
  · exact readLine_of_byteDigits (lineBody_byteDigits_append v (by simp [isBlank]))

/-- The lines of a text are read as the bytes of its byte lines, in order. -/
theorem readLines_map_loadLine (lineNo : Nat) (rows : List (Option Byte × Option (List Char))) :
    readLines lineNo (rows.map loadLine) = .ok (rows.filterMap (·.1)) := by
  induction rows generalizing lineNo with
  | nil => rfl
  | cons row rows ih =>
    obtain ⟨_ | v, comment⟩ := row <;> simp [readLines, readLine_loadLine, ih]

/-- The image of a text is the bytes of its byte lines, if there are at most 256. -/
theorem readImage_map_loadLine (rows : List (Option Byte × Option (List Char))) :
    readImage (rows.map loadLine) = if (rows.filterMap (·.1)).length ≤ 256 then .ok (rows.filterMap (·.1))
      else .error .imageTooLong := by
  rw [readImage, readLines_map_loadLine]

/-! ### The statements -/

/-- Settles O9: the latched bytes begin with the encoding, which is as long as the width says. -/
theorem encodeOfDecodeIsTheLatchedBytes : Obligations.EncodeOfDecodeIsTheLatchedBytes := by
  intro l i hdec
  have hwidth := width_of_decode hdec
  refine ⟨?_, hwidth, (length_encode i).symm⟩
  rw [← hwidth, ← length_encode]
  exact List.prefix_iff_eq_take.1 (decode_eq_instr.1 hdec)

/-- Settles O14: the counts are of the 256 opcode bytes; the step is the skip. -/
theorem unknownOpcodesAreReportedAndSkipped : Obligations.UnknownOpcodesAreReportedAndSkipped := by
  refine ⟨unknownOpcodes_count, unknownOpcodes_count_by_width, fun s hrun hpc hkind => ?_⟩
  obtain ⟨l, hstep⟩ := step_of_unknownOpcode hrun hpc hkind
  rw [← opWidth_eq, BitVec.ofNat_toNat]
  exact ⟨_, hstep, diagPulse_of_append rfl, rfl⟩

/-- Settles O15: the width is at most 4, so from an address at which a fetch succeeds the pc does not wrap. -/
theorem pcAdvancesByTheWidth : Obligations.PcAdvancesByTheWidth := by
  refine ⟨fun op => ⟨opWidth_eq op, opWidth_pos op, opWidth_le op⟩, fun s t hrun hstep => ?_⟩
  rw [← opWidth_eq]
  rcases step_pc hrun hstep with ⟨hfault, hpc⟩ | ⟨hnot, hpc⟩
  · exact ⟨fun hnot => absurd hfault hnot, fun _ => hpc⟩
  · exact ⟨fun _ => hpc, fun hfault => absurd hfault hnot⟩

/-- Settles O51: the lines read as the bytes of the byte lines, of which an image has at most 256. -/
theorem loadTextReadsBack : Obligations.LoadTextReadsBack := by
  intro rows
  exact ⟨fun hlen => (readImage_map_loadLine rows).trans (if_pos hlen),
    fun hlen => (readImage_map_loadLine rows).trans (if_neg (Nat.not_le.2 hlen))⟩

/-- Settles O5: in each row the three bytes begin with the encoding of the instruction. -/
theorem opcodeTableDecodes : Obligations.OpcodeTableDecodes := by
  have hdec (i : Instr) (a b : Byte) (h : encode i <+: [i.opcode, a, b]) : decode ⟨i.opcode, a, b⟩ = .instr i :=
    decode_eq_instr.2 h
  intro a b
  exact ⟨⟨hdec (.ldi a b) a b ⟨[], rfl⟩, opWidth_ldi, rfl⟩, ⟨hdec (.prn a) a b ⟨[b], rfl⟩, opWidth_prn, rfl⟩,
    ⟨hdec .hlt a b ⟨[a, b], rfl⟩, opWidth_hlt, rfl⟩, ⟨hdec (.pop a) a b ⟨[b], rfl⟩, opWidth_pop, rfl⟩,
    ⟨hdec (.push a) a b ⟨[b], rfl⟩, opWidth_push, rfl⟩, ⟨hdec (.add a b) a b ⟨[], rfl⟩, opWidth_add, rfl⟩,
    ⟨hdec (.sub a b) a b ⟨[], rfl⟩, opWidth_sub, rfl⟩, ⟨hdec (.mul a b) a b ⟨[], rfl⟩, opWidth_mul, rfl⟩,
    ⟨hdec (.div a b) a b ⟨[], rfl⟩, opWidth_div, rfl⟩⟩

/-- Settles O6: the ALU's opcodes are the known ones with the flag, and the selector agrees with the decoder. -/
theorem aluFlagOpcodesOutsideTheTableAreUnknown : Obligations.AluFlagOpcodesOutsideTheTableAreUnknown := by
  intro op
  refine ⟨fun hflag hout => ⟨?_, ?_⟩, aluFlag_of_known op, aluSelect_isSome_iff, fun p hp a b => ?_⟩
  · by_contra hknown
    exact hout ((aluFlag_of_known op hknown).1 hflag)
  · exact Option.not_isSome_iff_eq_none.1 fun hsome => hout (aluSelect_isSome_iff.1 hsome)
  · have hinstr : p.2 = p.1.instr := by
      simp only [List.mem_cons, List.not_mem_nil, or_false] at hp
      rcases hp with rfl | rfl | rfl | rfl <;> rfl
    rw [hinstr]
    exact ⟨aluSelect_iff_decode, fun s ha hb hz => exec_aluInstr p.1 ha hb hz⟩

/-- Settles O7: the kind of the opcode alone decides which operand bytes the decoder looks at. -/
theorem unusedOperandBytesAreIgnored : Obligations.UnusedOperandBytesAreIgnored := by
  intro op a b a' b'
  constructor
  · intro hkind
    simp only [List.mem_cons, List.not_mem_nil, or_false] at hkind
    rcases hkind with hkind | hkind | hkind <;> simp only [decode, hkind]
  · intro hkind
    simp only [List.mem_cons, List.not_mem_nil, or_false] at hkind
    rcases hkind with hkind | hkind <;> simp only [decode, hkind]

end Sys2Proof.Machine

namespace Sys2Proof.Machine

/-! PROOFS. The engine statements (40_engine.md R80 to R91): every step has a next state, a fault is entered precisely,
a core that is not Running is kept, and pc, which a Running core only raises, bounds a run. -/

/-! ### Every step has a next state (R80) -/

theorem exec_total (i : Instr) (s : State) : ∃ t, exec i s = .next t := by
  cases htrap : instrTrap? s.regs i with
  | some trap => exact ⟨_, exec_of_trap htrap⟩
  | none =>
    obtain ⟨t, ht, -⟩ := exec_of_no_trap htrap
    exact ⟨t, ht⟩

theorem executeLatched_total (s : State) : ∃ t, executeLatched s = .next t := by
  unfold executeLatched
  split
  · exact exec_total _ _
  · exact ⟨_, rfl⟩

/-- A step of a Running core whose fetch succeeds executes the latched bytes. -/
theorem step_of_fetch {s : State} {l : Latch} (hrun : s.runState = .running) (hfetch : fetch s = .ok l) :
    step s = finishStep (executeLatched (s.setLatch l)) := by
  rw [step_of_running hrun, runningStep, hfetch]

theorem step_total (s : State) : ∃ t, step s = .next t := by
  by_cases hrun : s.runState = .running
  · rcases Nat.lt_or_ge s.pc.toNat 254 with hpc | hpc
    · obtain ⟨u, hu⟩ := executeLatched_total (s.setLatch _)
      exact ⟨_, (step_of_fetch hrun (fetch_of_le (Nat.le_of_lt_succ hpc))).trans (congrArg finishStep hu)⟩
    · exact ⟨_, (step_of_running hrun).trans (runningStep_of_ge hpc)⟩
  · exact ⟨s, step_of_not_running hrun⟩

/-! ### Fault entry is precise (R85, R162, R164) -/

/-- A step with a condition of R161 enters the first one's fault from the state it started in, but for the latch. -/
theorem step_of_firstFault {s : State} {trap : Trap} (hrun : s.runState = .running)
    (hfault : firstFault s = some trap) : ∃ l, step s = .next ((s.setLatch l).enterFault trap).dropLatch := by
  rcases Nat.lt_or_ge s.pc.toNat 254 with hpc | hpc
  · obtain ⟨l, hfetch⟩ : ∃ l, fetch s = .ok l := ⟨_, fetch_of_le (Nat.le_of_lt_succ hpc)⟩
    refine ⟨l, (step_of_fetch hrun hfetch).trans ?_⟩
    rw [executeLatched, State.setLatch_latch]
    split
    · rename_i i hdec
      have htrap := (firstFault_of_instr hfetch hdec).symm.trans hfault
      rw [exec_of_trap (s := s.setLatch l) htrap]
      rfl
    · rename_i op hdec
      cases (firstFault_of_unknown hfetch hdec).symm.trans hfault
  · cases (firstFault_of_ge hpc).symm.trans hfault
    exact ⟨s.latch, (step_of_running hrun).trans (runningStep_of_ge hpc)⟩

/-- The first address above 255, as a fault's info: 256 from pc 254 and 255, and pc itself above (R82). -/
theorem ofNat_max_pc (pc : PcWord) : BitVec.ofNat 9 (max pc.toNat 256) = if pc.toNat ≤ 255 then 256 else pc := by
  split
  · rename_i h
    rw [Nat.max_eq_right (Nat.le_succ_of_le h)]
    rfl
  · rename_i h
    rw [Nat.max_eq_left (Nat.lt_of_not_le h), BitVec.ofNat_toNat, BitVec.setWidth_eq]

/-! ### Runs (R87, R90, R91) -/

/-- A run whose first step has a next state goes on from there, on any core of the host's. -/
theorem coreRun_succ_of_step {M : Host.Core} {s t : M.State} (h : M.step s = .next t) (n : Nat) :
    M.run (n + 1) s = M.run n t := by
  rw [Host.Core.run, h]

theorem run_succ_of_step {s t : State} (h : step s = .next t) (n : Nat) :
    Host.Core.run Sys2Proof.core (n + 1) s = Host.Core.run Sys2Proof.core n t :=
  coreRun_succ_of_step (M := Sys2Proof.core) h n

theorem run_of_not_running {s : State} (h : s.runState ≠ .running) (n : Nat) :
    Host.Core.run Sys2Proof.core n s = .next s := by
  induction n with
  | zero => rfl
  | succ n ih => exact (run_succ_of_step (step_of_not_running h) n).trans ih

/-- A step that leaves the core Running began Running, at an address where a fetch succeeds, and raised pc. -/
theorem pc_lt_of_step_running {s t : State} (hstep : step s = .next t) (hrun : t.runState = .running) :
    s.runState = .running ∧ s.pc.toNat ≤ 253 ∧ s.pc.toNat < t.pc.toNat := by
  obtain ⟨hs, hle⟩ : s.runState = .running ∧ s.pc.toNat ≤ 253 := by
    rcases step_cases hstep with ⟨hnot, rfl⟩ | ⟨-, -, rfl⟩ | ⟨-, -, -, hs, hpc, -⟩ | ⟨-, -, hs, hpc, -⟩
    · exact absurd hrun hnot
    · cases hrun
    · exact ⟨hs, hpc⟩
    · exact ⟨hs, hpc⟩
  refine ⟨hs, hle, ?_⟩
  rcases step_pc hs hstep with ⟨hfault, -⟩ | ⟨-, hpc⟩
  · cases hfault.symm.trans hrun
  · have := opWidth_pos (s.mem.read s.pc.toNat)
    omega

/-- A run ends once its steps, each raising pc by at least 1, would take pc beyond 253. -/
theorem endsIn_of_le_pc_add {n : Nat} {s : State} (h : s.runState = .running → 254 ≤ s.pc.toNat + n) :
    ∃ t, EndsIn (n + 1) s t := by
  induction n generalizing s with
  | zero =>
    obtain ⟨t, hstep⟩ := step_total s
    refine ⟨t, run_succ_of_step hstep 0, fun hrun => ?_⟩
    obtain ⟨hs, hpc, -⟩ := pc_lt_of_step_running hstep hrun
    have := h hs
    omega
  | succ n ih =>
    obtain ⟨t, hstep⟩ := step_total s
    obtain ⟨u, hu, hend⟩ := ih (s := t) fun hrun => by
      obtain ⟨hs, -, hlt⟩ := pc_lt_of_step_running hstep hrun
      have := h hs
      omega
    exact ⟨u, (run_succ_of_step hstep (n + 1)).trans hu, hend⟩

/-! ### The statements -/

/-- Settles O13: the first condition's fault is entered; with none the step, which has a next state, is not Faulted. -/
theorem stepRaisesTheFirstFaultPrecisely : Obligations.StepRaisesTheFirstFaultPrecisely := by
  intro s hrun
  constructor
  · intro trap hfault
    obtain ⟨l, hstep⟩ := step_of_firstFault hrun hfault
    exact ⟨_, _, hstep⟩
  · intro hnone
    obtain ⟨t, hstep⟩ := step_total s
    exact ⟨t, hstep, fun hfaulted => by simpa [hnone] using (step_faulted_iff hrun hstep).1 hfaulted⟩

/-- Settles O16, by induction on the number of steps. -/
theorem haltedAndFaultedAreAbsorbing : Obligations.HaltedAndFaultedAreAbsorbing :=
  fun _ n hrun => run_of_not_running hrun n

/-- Settles O45: 254 further steps take pc beyond 253 from any address. -/
theorem everyRunEndsWithin255Steps : Obligations.EveryRunEndsWithin255Steps :=
  fun s => endsIn_of_le_pc_add fun _ => Nat.le_add_left 254 s.pc.toNat

/-- Settles O12: the fault at 254 and above is the first in R164's order. -/
theorem fetchReadsThreeBytesOrFaults : Obligations.FetchReadsThreeBytesOrFaults := by
  intro s hrun
  refine ⟨fetch_of_le, fun hpc => ?_⟩
  obtain ⟨l, hstep⟩ := step_of_firstFault hrun (firstFault_of_ge hpc)
  rw [← ofNat_max_pc]
  exact ⟨_, _, hstep⟩

end Sys2Proof.Machine

namespace Sys2Proof.Machine

/-! PROOFS. The statements on LDI, PRN and HLT (41_data_io_halt.md R101 to R106), after the facts they need: the output
pulse of a step that appends a byte, and the decimal digits of a number. -/

/-! ### The output pulse (R103, R184) -/

/-- The output pulse of a step that appends one byte is that byte. -/
theorem outPulse_of_append {s t : State} {v : Byte} (h : t.out = s.out ++ [v]) : outPulse s t = some v := by
  simp [outPulse, h]

/-! ### Decimal digits (R104) -/

/-- A digit appended multiplies the value of the digits before it by the base and adds its own. -/
theorem digitsValue_append_digit {digits cs : List Char} {c : Char} {n d : Nat} (hcs : digitsValue digits cs = some n)
    (hc : digits.idxOf? c = some d) : digitsValue digits (cs ++ [c]) = some (digits.length * n + d) := by
  have hne : cs ≠ [] := by
    rintro rfl
    cases hcs
  rw [digitsValue, if_neg hne] at hcs
  obtain ⟨values, hvalues, rfl⟩ := Option.map_eq_some_iff.1 hcs
  simp [digitsValue, List.mapM_append, hvalues, hc]

/-- A single digit has its own value. -/
theorem digitsValue_digit {digits : List Char} {c : Char} {d : Nat} (hc : digits.idxOf? c = some d) :
    digitsValue digits [c] = some d := by
  simp [digitsValue, hc]

theorem idxOf?_decDigits_digitChar : ∀ d < 10, decDigits.idxOf? (Nat.digitChar d) = some d := by
  decide

/-- The decimal digits of a number read as that number. -/
theorem digitsValue_toDigits (n : Nat) : digitsValue decDigits (Nat.toDigits 10 n) = some n := by
  induction n using Nat.strongRecOn with
  | ind n ih =>
    rcases Nat.lt_or_ge n 10 with hlt | hge
    · rw [Nat.toDigits_of_lt_base hlt]
      exact digitsValue_digit (idxOf?_decDigits_digitChar n hlt)
    · rw [Nat.toDigits_of_base_le (by decide) hge]
      have hquot := ih (n / 10) (by omega)
      have hrem := idxOf?_decDigits_digitChar (n % 10) (Nat.mod_lt n (by decide))
      rw [digitsValue_append_digit hquot hrem]
      exact congrArg some (Nat.div_add_mod n 10)

/-- The decimal digits of a number other than 0 do not begin with the digit 0. -/
theorem head?_toDigits_ne_zero {n : Nat} (h : n ≠ 0) : (Nat.toDigits 10 n).head? ≠ some '0' := by
  induction n using Nat.strongRecOn with
  | ind n ih =>
    rcases Nat.lt_or_ge n 10 with hlt | hge
    · simpa [Nat.toDigits_of_lt_base hlt] using h
    · rw [Nat.toDigits_of_base_le (by decide) hge, List.head?_append_of_ne_nil _ Nat.toDigits_ne_nil]
      exact ih (n / 10) (by omega) (by omega)

/-! ### The statements -/

/-- Settles O19: the operand check decides between the write and the fault. -/
theorem ldiLoadsTheImmediate : Obligations.LdiLoadsTheImmediate := by
  intro a imm s
  have hdec : decode ⟨0x82, a, imm⟩ = .instr (.ldi a imm) := decode_eq_instr.2 (List.prefix_refl _)
  exact ⟨⟨hdec, rfl⟩, fun ha => withRegister_of_lt ha s _, fun ha => withRegister_of_ge ha s _⟩

/-- Settles O20: the operand check decides between the emission, whose pulse is the byte it appends, and the fault. -/
theorem prnEmitsTheRegister : Obligations.PrnEmitsTheRegister := by
  intro a b s
  have hdec : decode ⟨0x47, a, b⟩ = .instr (.prn a) := decode_eq_instr.2 ⟨[b], rfl⟩
  have hexec (ha : a.toNat < 8) : exec (.prn a) s = .next { s with
      out := s.out ++ [s.regs[a.toNat]], pc := s.pc + 2 } := withRegister_of_lt ha s _
  refine ⟨⟨hdec, rfl⟩, hexec, fun ha t ht => ?_, fun ha => withRegister_of_ge ha s _⟩
  cases (hexec ha).symm.trans ht
  exact outPulse_of_append rfl

/-- Settles O21: HLT leaves a core that is not Running, which every run keeps; before that, its fetch at 254 and 255
raises the fault of R82. -/
theorem hltHalts : Obligations.HltHalts := by
  intro a b s
  have hdec : decode ⟨0x01, a, b⟩ = .instr .hlt := decode_eq_instr.2 ⟨[a, b], rfl⟩
  refine ⟨⟨hdec, rfl⟩, rfl, fun t n ht => ?_, fun hrun hpc => ?_⟩
  · cases ht
    exact run_of_not_running (by simp) n
  · have hfetch : 254 ≤ s.pc.toNat ∧ s.pc.toNat ≤ 255 := by
      rcases hpc with hpc | hpc <;> simp [hpc]
    obtain ⟨hge, hle⟩ := hfetch
    obtain ⟨l, n, hstep⟩ := (fetchReadsThreeBytesOrFaults s hrun).2 hge
    rw [if_pos hle] at hstep
    exact ⟨l, n, hstep⟩

/-- Settles O50: the line holds the decimal digits of the byte's number, which is 0 for the byte 0 only. -/
theorem outputLinesAreUnsignedDecimal : Obligations.OutputLinesAreUnsignedDecimal := by
  intro v
  refine ⟨digitsValue_toDigits v.toNat, fun hne => ?_, fun hzero => ?_⟩
  · have hnat : v.toNat ≠ 0 := fun h => hne (BitVec.eq_of_toNat_eq h)
    exact head?_toDigits_ne_zero hnat
  · rw [hzero]
    rfl

end Sys2Proof.Machine

namespace Sys2Proof.Machine

/-! PROOFS. The stack statements (42_stack.md R121 to R126), after the facts they need: PUSH and POP as updates of the
state, a list of instructions executed one after another, and what pushes leave for the pops that undo them. -/

/-! ### PUSH and POP (R124, R125) -/

/-- Once R7 is written, an operand byte names the new R7 or a register as it was. -/
theorem getElem_set_sp (regs : Vector Byte 8) (v : Byte) {a : Byte} (ha : a.toNat < 8) :
    (regs.set 7 v)[a.toNat] = if a = 7 then v else regs[a.toNat] := by
  have hseven : 7 = a.toNat ↔ a = 7 := eq_comm.trans (BitVec.toNat_inj (y := 7))
  rw [Vector.getElem_set]
  exact if_congr hseven rfl rfl

/-- PUSH of a register in range (R125). -/
theorem exec_push_of_lt {a : Byte} (ha : a.toNat < 8) (s : State) : exec (.push a) s = .next { s with
    regs := s.regs.set 7 (s.regs[7] - 1), pc := s.pc + 2,
    mem := s.mem.write (s.regs[7] - 1).toNat (s.regs.set 7 (s.regs[7] - 1))[a.toNat] } := by
  refine (withRegister_of_lt ha s _).trans ?_
  simp only [State.sp_setSp]
  rfl

/-- POP of a register in range (R124). -/
theorem exec_pop_of_lt {a : Byte} (ha : a.toNat < 8) (s : State) : exec (.pop a) s = .next { s with
    regs := (s.regs.set a.toNat (s.mem.read s.regs[7].toNat)).set 7
      ((s.regs.set a.toNat (s.mem.read s.regs[7].toNat))[7] + 1),
    pc := s.pc + 2 } :=
  withRegister_of_lt ha s _

/-- PUSH of a register other than R7 lowers SP and leaves that register's value at the new SP, every other byte as it
was. -/
theorem exec_push_other {r : Byte} (hr : r.toNat < 7) (s : State) :
    ∃ t, exec (.push r) s = .next t ∧ t.regs = s.regs.set 7 (s.regs[7] - 1) ∧
      ∀ x, t.mem.read x = if (s.regs[7] - 1).toNat = x then s.regs[r.toNat] else s.mem.read x := by
  refine ⟨_, exec_push_of_lt (Nat.lt_succ_of_lt hr) s, rfl, fun x => ?_⟩
  rw [Memory.read_write, Vector.getElem_set_ne _ _ (Nat.ne_of_gt hr)]

/-- POP raises SP again after a PUSH of the same register, and where the registers and the pushed byte are as that PUSH
left them it restores every register. -/
theorem exec_pop_undoes_push {r : Byte} (hr : r.toNat < 7) {s u : State} (hsp : u.regs[7] = s.regs[7] - 1) :
    ∃ v, exec (.pop r) u = .next v ∧ v.mem = u.mem ∧ v.regs[7] = s.regs[7] ∧
      (u.regs = s.regs.set 7 (s.regs[7] - 1) → u.mem.read (s.regs[7] - 1).toNat = s.regs[r.toNat] →
        v.regs = s.regs) := by
  refine ⟨_, exec_pop_of_lt (Nat.lt_succ_of_lt hr) u, rfl, ?_, fun hregs hread => ?_⟩
  · simp [Vector.getElem_set_ne _ _ (Nat.ne_of_lt hr), hsp]
  · have hload : u.regs.set r.toNat (u.mem.read u.regs[7].toNat) = u.regs := by
      have hreg : u.regs[r.toNat] = s.regs[r.toNat] := by simp [hregs, Vector.getElem_set_ne _ _ (Nat.ne_of_gt hr)]
      simp only [hsp, hread, ← hreg, Vector.set_getElem_self]
    simp only [hload]
    simp only [hregs, Vector.getElem_set_self, Vector.set_set, BitVec.sub_add_cancel, Vector.set_getElem_self]

/-! ### Instructions one after another -/

theorem execAll_cons {i : Instr} {s t : State} (h : exec i s = .next t) (is : List Instr) :
    execAll (i :: is) s = execAll is t := by
  rw [execAll, h]

theorem execAll_append {is : List Instr} {s t : State} (h : execAll is s = .next t) (js : List Instr) :
    execAll (is ++ js) s = execAll js t := by
  induction is generalizing s with
  | nil =>
    cases h
    rfl
  | cons i is ih =>
    obtain ⟨u, hu⟩ := exec_total i s
    rw [execAll_cons hu] at h
    exact (execAll_cons hu _).trans (ih h)

/-! ### Any number of pushes, and the pops that undo them (R126) -/

/-- Pushes of registers other than R7 lower SP by their number. They leave a byte at or above SP as it was, as long as
they are too few to wrap round to it. -/
theorem execAll_pushes {rs : List Byte} (hrs : ∀ r ∈ rs, r.toNat < 7) (s : State) :
    ∃ t, execAll (rs.map .push) s = .next t ∧ t.regs[7] = s.regs[7] - BitVec.ofNat 8 rs.length ∧
      ∀ d : Byte, d.toNat + rs.length < 256 →
        t.mem.read (s.regs[7] + d).toNat = s.mem.read (s.regs[7] + d).toNat := by
  induction rs generalizing s with
  | nil => exact ⟨s, rfl, by simp, fun _ _ => rfl⟩
  | cons r rs ih =>
    obtain ⟨hr, hrs⟩ := List.forall_mem_cons.1 hrs
    obtain ⟨s₁, hpush, hregs, hmem⟩ := exec_push_other hr s
    have hsp : s₁.regs[7] = s.regs[7] - 1 := by simp [hregs]
    obtain ⟨t, ht, htsp, hframe⟩ := ih hrs s₁
    refine ⟨t, (execAll_cons hpush _).trans ht, ?_, fun d hd => ?_⟩
    · rw [htsp, hsp, List.length_cons, BitVec.ofNat_add]
      bv_omega
    · rw [List.length_cons] at hd
      have haddr : s.regs[7] + d = s₁.regs[7] + (d + 1) := by rw [hsp]; bv_omega
      have hother : (s.regs[7] - 1).toNat ≠ (s.regs[7] + d).toNat := by bv_omega
      calc t.mem.read (s.regs[7] + d).toNat
          = s₁.mem.read (s.regs[7] + d).toNat := by
            rw [haddr]
            exact hframe (d + 1) (by bv_omega)
        _ = s.mem.read (s.regs[7] + d).toNat := by rw [hmem, if_neg hother]

/-- The pops in the opposite order write no memory and restore SP, and every register for up to 256 of them: the
pushes after the first are then too few to overwrite its byte. -/
theorem execAll_pops_undo_pushes {rs : List Byte} (hrs : ∀ r ∈ rs, r.toNat < 7) {s t : State}
    (ht : execAll (rs.map .push) s = .next t) :
    ∃ u, execAll (rs.reverse.map .pop) t = .next u ∧ u.mem = t.mem ∧ u.regs[7] = s.regs[7] ∧
      (rs.length ≤ 256 → u.regs = s.regs) := by
  induction rs generalizing s with
  | nil =>
    cases ht
    exact ⟨_, rfl, rfl, rfl, fun _ => rfl⟩
  | cons r rs ih =>
    obtain ⟨hr, hrs⟩ := List.forall_mem_cons.1 hrs
    obtain ⟨s₁, hpush, hregs, hmem⟩ := exec_push_other hr s
    have hsp : s₁.regs[7] = s.regs[7] - 1 := by simp [hregs]
    rw [List.map_cons, execAll_cons hpush] at ht
    obtain ⟨u, hu, humem, husp, huregs⟩ := ih hrs ht
    obtain ⟨v, hpop, hvmem, hvsp, hvregs⟩ := exec_pop_undoes_push hr (husp.trans hsp)
    refine ⟨v, ?_, hvmem.trans humem, hvsp, fun hlen => hvregs ((huregs (Nat.le_of_succ_le hlen)).trans hregs) ?_⟩
    · rw [List.reverse_cons, List.map_append, execAll_append hu]
      exact execAll_cons hpop []
    · rw [List.length_cons] at hlen
      obtain ⟨t', ht', -, hframe⟩ := execAll_pushes hrs s₁
      cases ht.symm.trans ht'
      have hkept : t.mem.read s₁.regs[7].toNat = s₁.mem.read s₁.regs[7].toNat := by
        simpa using hframe 0 (by simpa using hlen)
      rw [humem, ← hsp, hkept, hmem, hsp, if_pos rfl]

/-! ### The statements -/

/-- Settles O22: the operand check decides between the load and the fault. -/
theorem popLoadsThenIncrements : Obligations.PopLoadsThenIncrements := by
  intro a b s
  have hdec : decode ⟨0x46, a, b⟩ = .instr (.pop a) := decode_eq_instr.2 ⟨[b], rfl⟩
  exact ⟨⟨hdec, rfl⟩, fun ha => exec_pop_of_lt ha s, fun ha => withRegister_of_ge ha s _⟩

/-- Settles O23: the operand check decides between the store, whose frame is that of a memory write, and the fault. -/
theorem pushDecrementsThenStores : Obligations.PushDecrementsThenStores := by
  intro a b s
  have hdec : decode ⟨0x45, a, b⟩ = .instr (.push a) := decode_eq_instr.2 ⟨[b], rfl⟩
  refine ⟨⟨hdec, rfl⟩, fun ha => ⟨_, exec_push_of_lt ha s, rfl, fun x => ?_⟩, fun ha => withRegister_of_ge ha s _⟩
  rw [Memory.read_write]
  exact if_congr eq_comm rfl rfl

/-- Settles O32: the byte arithmetic of SP wraps, and PUSH and POP of a register in range leave the fault status as it
was. -/
theorem stackPointerWraps : Obligations.StackPointerWraps := by
  intro a s ha
  have hpush := exec_push_of_lt ha s
  have hpop := exec_pop_of_lt ha s
  refine ⟨⟨_, hpush, by simp, fun hzero => ?_⟩, ⟨_, hpop, fun hne => ?_, fun hmax hne => ?_⟩, fun hcode t ht => ?_⟩
  · simp [hzero, getElem_set_sp _ _ ha]
  · have hreg : a.toNat ≠ 7 := fun h => hne (BitVec.eq_of_toNat_eq h)
    simp [Vector.getElem_set_ne _ _ hreg]
  · have hreg : a.toNat ≠ 7 := fun h => hne (BitVec.eq_of_toNat_eq h)
    simp [Vector.getElem_set_ne _ _ hreg, Vector.getElem_set_ne _ _ hreg.symm, hmax]
  · rcases ht with ht | ht
    · cases hpush.symm.trans ht
      exact hcode
    · cases hpop.symm.trans ht
      exact hcode

/-- Settles O33: one POP undoes its PUSH, and by induction on the registers pushed the pops undo all of them. -/
theorem pushesThenPopsRestore : Obligations.PushesThenPopsRestore := by
  refine ⟨fun r s hr => ?_, fun rs s hrs => ?_⟩
  · obtain ⟨t, hpush, hregs, hmem⟩ := exec_push_other hr s
    have hread : t.mem.read (s.regs[7] - 1).toNat = s.regs[r.toNat] := (hmem _).trans (if_pos rfl)
    obtain ⟨u, hpop, humem, -, hrestore⟩ := exec_pop_undoes_push hr (s := s) (u := t) (by simp [hregs])
    exact ⟨u, (execAll_cons hpush _).trans (execAll_cons hpop _), hrestore hregs hread, humem ▸ hread⟩
  · obtain ⟨t, ht, hsp, -⟩ := execAll_pushes hrs s
    obtain ⟨u, hu, -, husp, huregs⟩ := execAll_pops_undo_pushes hrs ht
    exact ⟨t, ht, hsp, u, hu, husp, huregs⟩

end Sys2Proof.Machine

namespace Sys2Proof.Machine

/-! PROOFS. The ALU statements (43_alu.md R141 to R147), for the four operations at once where they agree: the encoding,
the operand checks, the register written, all an ALU instruction can do. -/

/-! ### The encoding and the faults of an ALU instruction (R141, R145) -/

theorem decode_aluInstr (p : AluOp) (a b : Byte) : decode ⟨p.opcode, a, b⟩ = .instr (p.instr a b) := by
  rw [decode_eq_instr, AluOp.encode_instr]

section
variable {a b : Byte}

theorem exec_aluInstr_of_ge_left (p : AluOp) (s : State) (ha : 8 ≤ a.toNat) :
    exec (p.instr a b) s = .next (s.enterFault (.outOfRangeRegister a)) := by
  cases p <;> exact withRegister_of_ge ha s _

theorem exec_aluInstr_of_ge_right (p : AluOp) (s : State) (ha : a.toNat < 8) (hb : 8 ≤ b.toNat) :
    exec (p.instr a b) s = .next (s.enterFault (.outOfRangeRegister b)) := by
  cases p <;> exact (withRegister_of_lt ha s _).trans (withRegister_of_ge hb s _)

theorem exec_div_of_zero {s : State} (ha : a.toNat < 8) (hb : b.toNat < 8) (hzero : s.regs[b.toNat] = 0) :
    exec (.div a b) s = .next (s.enterFault (.divideByZero b)) :=
  (withRegisters_of_lt ha hb s _).trans (if_pos hzero)

section
variable (p : AluOp) {s : State} (ha : a.toNat < 8) (hb : b.toNat < 8) (hz : p = .div → s.regs[b.toNat] ≠ 0)
include hz

/-- An ALU instruction that completes, with its operation's result as a byte. -/
theorem exec_aluInstr_of_result {v : Byte} (hv : aluResult p s.regs[a.toNat] s.regs[b.toNat] = v) :
    exec (p.instr a b) s = .next { s with regs := s.regs.set a.toNat v, pc := s.pc + 3 } :=
  hv ▸ exec_aluInstr p ha hb hz

/-- An ALU instruction that completes leaves the number of its operation's result in its first register. -/
theorem exec_aluInstr_toNat {n : Nat} (hn : (aluResult p s.regs[a.toNat] s.regs[b.toNat]).toNat = n) :
    ∃ t, exec (p.instr a b) s = .next t ∧ t.regs[a.toNat].toNat = n :=
  ⟨_, exec_aluInstr p ha hb hz, (congrArg BitVec.toNat (Vector.getElem_set_self ha)).trans hn⟩

end

/-- All an ALU instruction can do: a fault, or a write of its first register and the move of pc. -/
theorem exec_aluInstr_next {p : AluOp} {s t : State} (h : exec (p.instr a b) s = .next t) :
    (∃ trap, t = s.enterFault trap) ∨
    ∃ (ha : a.toNat < 8) (v : Byte), t = { s with regs := s.regs.set a.toNat v, pc := s.pc + 3 } := by
  rcases Nat.lt_or_ge a.toNat 8 with ha | ha
  · rcases Nat.lt_or_ge b.toNat 8 with hb | hb
    · by_cases hz : p = .div → s.regs[b.toNat] ≠ 0
      · cases (exec_aluInstr p ha hb hz).symm.trans h
        exact .inr ⟨ha, _, rfl⟩
      · obtain ⟨rfl, hzero⟩ := Classical.not_imp.1 hz
        cases (exec_div_of_zero ha hb (not_not.1 hzero)).symm.trans h
        exact .inl ⟨_, rfl⟩
    · cases (exec_aluInstr_of_ge_right p s ha hb).symm.trans h
      exact .inl ⟨_, rfl⟩
  · cases (exec_aluInstr_of_ge_left p s ha).symm.trans h
    exact .inl ⟨_, rfl⟩

end

/-! ### The quotient as a number, and equal inputs (R146, R147) -/

theorem toNat_aluResult_div (x y : Byte) : (aluResult .div x y).toNat = x.toNat / y.toNat := by
  rw [aluResult_div, BitVec.toNat_udiv]

theorem aluResult_add_self (x : Byte) : aluResult .add x x = 2 * x := by
  rw [aluResult_add]
  exact BitVec.two_mul.symm

theorem aluResult_sub_self (x : Byte) : aluResult .sub x x = 0 := by
  rw [aluResult_sub]
  exact BitVec.sub_self x

theorem aluResult_mul_self (x : Byte) : aluResult .mul x x = BitVec.ofNat 8 (x.toNat ^ 2) := by
  rw [aluResult, Nat.pow_two]

theorem aluResult_div_self {x : Byte} (h : x ≠ 0) : aluResult .div x x = 1 := by
  rw [aluResult_div, BitVec.udiv_self]
  exact if_neg (by simpa using h)

/-! ### The statements -/

/-- Settles O28: of all an ALU instruction can do, a fault writes no register and a completion writes one. -/
theorem aluInstructionsCheckThenWriteOneRegister : Obligations.AluInstructionsCheckThenWriteOneRegister := by
  intro mk hmk a b s
  obtain ⟨p, rfl⟩ : ∃ p : AluOp, mk = p.instr := by
    simp only [List.mem_cons, List.not_mem_nil, or_false] at hmk
    rcases hmk with rfl | rfl | rfl | rfl
    exacts [⟨.add, rfl⟩, ⟨.sub, rfl⟩, ⟨.mul, rfl⟩, ⟨.div, rfl⟩]
  refine ⟨exec_aluInstr_of_ge_left p s, exec_aluInstr_of_ge_right p s, fun t ht => ?_⟩
  rcases exec_aluInstr_next ht with ⟨trap, rfl⟩ | ⟨ha, v, rfl⟩
  · exact ⟨fun _ _ => rfl, fun _ => rfl, rfl, rfl, rfl, fun hrun => absurd rfl hrun⟩
  · exact ⟨fun r hr => Vector.getElem_set_ne ha _ hr.symm, fun _ => rfl, rfl, rfl, rfl, fun _ => ⟨rfl, rfl, rfl⟩⟩

/-- Settles O29: the register written holds the operation's result, whose number is read off `aluResult`. -/
theorem aluResultsAreExactModulo256 : Obligations.AluResultsAreExactModulo256 := by
  refine ⟨fun a b s ha hb => ⟨?_, ?_, ?_, fun hne => ?_, fun hzero => ?_⟩, fun x y => ⟨?_, ?_⟩,
    ⟨0, 1, by decide⟩, ⟨1, 2, by decide⟩⟩
  · exact exec_aluInstr_toNat .add ha hb nofun (BitVec.toNat_ofNat _ _)
  · exact exec_aluInstr_toNat .sub ha hb nofun (BitVec.toNat_ofNat _ _)
  · exact exec_aluInstr_toNat .mul ha hb nofun (BitVec.toNat_ofNat _ _)
  · exact exec_aluInstr_toNat .div ha hb (fun _ => hne) (toNat_aluResult_div _ _)
  · exact ⟨_, exec_div_of_zero ha hb hzero, rfl, rfl⟩
  · rw [aluResult_add, aluResult_add, BitVec.add_comm]
  · rw [aluResult_mul, aluResult_mul, BitVec.mul_comm]

/-- Settles O24: the completion of an ALU instruction with the byte sum as its result, and the operand checks. -/
theorem addAddsModulo256 : Obligations.AddAddsModulo256 := fun a b s =>
  ⟨⟨decode_aluInstr .add a b, rfl⟩, fun ha hb => exec_aluInstr_of_result .add ha hb nofun (aluResult_add _ _),
    exec_aluInstr_of_ge_left .add s, exec_aluInstr_of_ge_right .add s⟩

/-- Settles O25: the completion of an ALU instruction with the byte difference as its result, and the operand checks. -/
theorem subSubtractsModulo256 : Obligations.SubSubtractsModulo256 := fun a b s =>
  ⟨⟨decode_aluInstr .sub a b, rfl⟩, fun ha hb => exec_aluInstr_of_result .sub ha hb nofun (aluResult_sub _ _),
    exec_aluInstr_of_ge_left .sub s, exec_aluInstr_of_ge_right .sub s⟩

/-- Settles O26: the completion of an ALU instruction with the byte product as its result, and the operand checks. -/
theorem mulMultipliesModulo256 : Obligations.MulMultipliesModulo256 := fun a b s =>
  ⟨⟨decode_aluInstr .mul a b, rfl⟩, fun ha hb => exec_aluInstr_of_result .mul ha hb nofun (aluResult_mul _ _),
    exec_aluInstr_of_ge_left .mul s, exec_aluInstr_of_ge_right .mul s⟩

/-- Settles O27: the completion of an ALU instruction with the quotient as its result, and the checks of the operands
and the divisor. -/
theorem divDividesOrFaults : Obligations.DivDividesOrFaults := fun a b s =>
  ⟨⟨decode_aluInstr .div a b, rfl⟩,
    fun ha hb hne => exec_aluInstr_of_result .div ha hb (fun _ => hne) (aluResult_div _ _),
    exec_div_of_zero, exec_aluInstr_of_ge_left .div s, exec_aluInstr_of_ge_right .div s⟩

/-- Settles O30: both inputs are the register's value before the write. -/
theorem sameRegisterAsBothAluOperands : Obligations.SameRegisterAsBothAluOperands := by
  intro a s ha
  refine ⟨?_, ?_, ?_, fun hne => ?_, exec_div_of_zero ha ha⟩
  · exact exec_aluInstr_of_result .add ha ha nofun (aluResult_add_self _)
  · exact exec_aluInstr_of_result .sub ha ha nofun (aluResult_sub_self _)
  · exact exec_aluInstr_of_result .mul ha ha nofun (aluResult_mul_self _)
  · exact exec_aluInstr_of_result .div ha ha (fun _ => hne) (aluResult_div_self hne)

end Sys2Proof.Machine

namespace Sys2Proof.Machine

/-! PROOFS. The statements on fault codes and infos (60_exceptions.md R160, R166), after what a step can do to the
fault status: keep it, or record a trap, whose info lies in its code's range. -/

/-! ### Traps against R160's table -/

theorem Trap.code_ne_unsupportedOperation (trap : Trap) : trap.code ≠ .unsupportedOperation := by
  cases trap <;> nofun

theorem Trap.statusLegal_of_ofInstr {trap : Trap} (h : trap.ofInstr) : faultStatusLegal trap.code trap.info := by
  cases trap with
  | outOfRangeMemory addr => exact h.elim
  | outOfRangeRegister a =>
    rw [Trap.ofInstr] at h
    have := a.isLt
    simp only [faultStatusLegal, Trap.code, Trap.info, BitVec.toNat_setWidth]
    omega
  | divideByZero b =>
    rw [Trap.ofInstr] at h
    simp only [faultStatusLegal, Trap.code, Trap.info, BitVec.toNat_setWidth]
    omega

/-- The fetch's trap records the first address above 255, which is 256..259 for the addresses pc takes (R25, R82). -/
theorem fetchTrap_statusLegal {pc : PcWord} (hpc : pc.toNat ≤ 259) :
    faultStatusLegal (Trap.outOfRangeMemory (max pc.toNat 256)).code
      (Trap.outOfRangeMemory (max pc.toNat 256)).info := by
  simp only [faultStatusLegal, Trap.code, Trap.info, BitVec.toNat_ofNat]
  omega

/-- A legal fault status, by the numbers of R160's table. -/
theorem code_of_faultStatusLegal {code : FaultCode} {info : PcWord} (h : faultStatusLegal code info) :
    (code.code = 1 ∧ 256 ≤ info.toNat ∧ info.toNat ≤ 259) ∨
    (code.code = 2 ∧ 8 ≤ info.toNat ∧ info.toNat ≤ 255) ∨
    (code.code = 3 ∧ info.toNat ≤ 7) := by
  cases code with
  | noFault | unsupportedOperation => exact h.elim
  | outOfRangeMemory => exact .inl ⟨rfl, h⟩
  | outOfRangeRegister => exact .inr (.inl ⟨rfl, h⟩)
  | divideByZero => exact .inr (.inr ⟨rfl, h⟩)

/-! ### The fault status after a step -/

/-- All a step can do to the fault status: keep it, and then not enter Faulted, or enter Faulted with a trap's code and
info, which are of R160's table from the addresses pc takes. -/
theorem step_faultStatus {s t : State} (hstep : step s = .next t) :
    (t.faultCode = s.faultCode ∧ t.faultInfo = s.faultInfo ∧ (s.runState ≠ .faulted → t.runState ≠ .faulted)) ∨
    (∃ trap : Trap, t.runState = .faulted ∧ t.faultCode = trap.code ∧ t.faultInfo = trap.info ∧
      (s.pc.toNat ≤ 259 → faultStatusLegal trap.code trap.info)) := by
  rcases step_cases hstep with ⟨-, rfl⟩ | ⟨-, -, rfl⟩ | ⟨l, i, u, -, -, -, -, hu, rfl⟩ | ⟨l, op, -, -, -, -, rfl⟩
  · exact .inl ⟨rfl, rfl, id⟩
  · exact .inr ⟨_, rfl, rfl, rfl, fetchTrap_statusLegal⟩
  · rcases exec_next hu with ⟨trap, htrap, -, rfl⟩ | hdone
    · exact .inr ⟨trap, rfl, rfl, rfl, fun _ => Trap.statusLegal_of_ofInstr htrap⟩
    · exact .inl ⟨hdone.faultCode, hdone.faultInfo, hdone.not_faulted⟩
  · exact .inl ⟨rfl, rfl, id⟩

/-! ### The statements -/

/-- Settles O41: a step keeps the code or records a trap's, and no trap has code 4. -/
theorem unsupportedOperationIsNeverRaised : Obligations.UnsupportedOperationIsNeverRaised := by
  intro s t hstep hcode
  rcases step_faultStatus hstep with ⟨hkeep, -⟩ | ⟨trap, -, htrap, -⟩
  · exact hkeep.symm.trans hcode
  · exact absurd (htrap.symm.trans hcode) trap.code_ne_unsupportedOperation

/-- Settles O49: a step that keeps the clear status does not fault, and one that records a trap faults with a status of
the table. -/
theorem faultCodesAndInfosOfTheTable : Obligations.FaultCodesAndInfosOfTheTable := by
  refine ⟨⟨rfl, rfl, rfl, rfl, rfl⟩, fun s t hrun hpc hcode hinfo hstep => ?_⟩
  rcases step_faultStatus hstep with ⟨hcode', hinfo', hkeep⟩ | ⟨trap, hfaulted, hcode', hinfo', hlegal⟩
  · refine ⟨fun _ => ⟨?_, hinfo'.trans hinfo⟩, fun hfaulted => absurd hfaulted (hkeep (by simp [hrun]))⟩
    rw [hcode', hcode]
    rfl
  · rw [hcode', hinfo']
    exact ⟨fun hnot => absurd hfaulted hnot, fun _ => code_of_faultStatusLegal (hlegal hpc)⟩

end Sys2Proof.Machine

namespace Sys2Proof.Machine

/-! PROOFS. The statement on the inspection port (70_reset_and_hazards.md R185), after what the port shows for each
select once the core is not Running. -/

/-- Select 0 is `MemRead` at the address (R185). -/
theorem State.hstData_memory {s : State} (hstopped : s.runState = .halted ∨ s.runState = .faulted)
    (readNo : Nat) (addr : Byte) : s.hstData readNo false addr = s.memRead addr := by
  rcases hstopped with hhalted | hfaulted
  · simp [State.hstData, hhalted]
  · simp [State.hstData, hfaulted]

/-- Select 1 is the register that bits 2:0 of the address name (R185). -/
theorem State.hstData_register {s : State} (hstopped : s.runState = .halted ∨ s.runState = .faulted)
    (readNo : Nat) (addr : Byte) :
    s.hstData readNo true addr = s.reg ⟨addr.toNat % 8, Nat.mod_lt _ (by decide)⟩ := by
  rcases hstopped with hhalted | hfaulted
  · simp [State.hstData, hhalted]
  · simp [State.hstData, hfaulted]

/-- Settles O47: each select reads its part of the state, in both run states other than Running. -/
theorem inspectionPortReadsTheFinalState : Obligations.InspectionPortReadsTheFinalState :=
  fun _ readNo addr hstopped =>
    ⟨State.hstData_memory hstopped readNo addr, State.hstData_register hstopped readNo addr⟩

end Sys2Proof.Machine

namespace Sys2Proof.Machine

/-! PROOFS. The bytes of an instruction decode to it, in a list and in memory (30_encoding.md R60, R64, R72). -/

/-- An encoding fits the three latched bytes (R61, R81). -/
theorem length_encode_le (i : Instr) : (encode i).length ≤ 3 := by
  cases i <;> simp [encode, Instr.operands]

/-- Three bytes that are the encoding of an instruction, as far as that goes, decode to the instruction, wherever they
are read from. -/
theorem decode_of_bytes {i : Instr} {byte : Nat → Byte}
    (h : ∀ (k : Nat) (hk : k < (encode i).length), byte k = (encode i)[k]) :
    decode ⟨byte 0, byte 1, byte 2⟩ = .instr i := by
  refine decode_eq_instr.2 (List.prefix_iff_getElem?.2 fun k hk => ?_)
  rw [← h k hk]
  have hlen := length_encode_le i
  have hcase : k = 0 ∨ k = 1 ∨ k = 2 := by omega
  rcases hcase with rfl | rfl | rfl <;> rfl

/-- Settles O8: the bytes latched from a list, or fetched from memory, are the encoding as far as that goes. -/
theorem decodeOfEncodeIsTheInstruction : Obligations.DecodeOfEncodeIsTheInstruction := by
  refine ⟨fun i rest => ?_, fun s i hpc hbytes => ⟨_, fetch_of_le hpc, decode_of_bytes hbytes⟩⟩
  refine decode_of_bytes (byte := fun k => (encode i ++ rest).getD k 0) fun k hk => ?_
  rw [List.getD_append _ _ _ _ hk, List.getD_eq_getElem _ _ hk]

end Sys2Proof.Machine

namespace Sys2Proof.Machine

/-! PROOFS. The invariant (10_state.md R25 to R27, R34; 60_exceptions.md R160): what each part of a step keeps of it,
then steps, runs and reset. -/

/-! ### What each part of a step keeps (R85, R86, R88) -/

/-- The latch is no part of the invariant. -/
theorem State.Inv.setLatch {s : State} (h : s.Inv) (l : Latch) : (s.setLatch l).Inv :=
  ⟨h.memory, h.pcRange, h.statusClear, h.statusLegal, h.haltedPc, h.diagUnknown⟩

/-- Neither the latch nor `draws` is a part of the invariant. -/
theorem State.Inv.dropLatch {s : State} (h : s.Inv) : s.dropLatch.Inv :=
  ⟨h.memory, h.pcRange, h.statusClear, h.statusLegal, h.haltedPc, h.diagUnknown⟩

theorem State.Inv.enterFault {s : State} (h : s.Inv) {trap : Trap} (hlegal : faultStatusLegal trap.code trap.info) :
    (s.enterFault trap).Inv where
  memory := h.memory
  pcRange := h.pcRange
  statusClear := fun hnot => absurd rfl hnot
  statusLegal := fun _ => hlegal
  haltedPc := nofun
  diagUnknown := h.diagUnknown

/-- From an address at which a fetch succeeds, adding a width stays within 0..259 (R25, R88). -/
theorem toNat_pc_add_width_le {pc : PcWord} (hpc : pc.toNat ≤ 253) (op : Byte) :
    (pc + BitVec.ofNat 9 (opWidth op)).toNat ≤ 259 := by
  have hwidth := opWidth_le op
  rw [toNat_pc_add_width hpc hwidth]
  omega

theorem Completed.mem_wf {i : Instr} {s t : State} (hdone : Completed i s t) (hs : s.mem.wf) : t.mem.wf := by
  rcases hdone.mem with ⟨-, hmem⟩ | ⟨a, ha, -, hmem⟩ <;> rw [hmem]
  · exact hs
  · exact Memory.wf_write _ hs (BitVec.isLt _)

/-- A completed instruction that leaves a Running core Halted is HLT, one byte wide. -/
theorem Completed.halted_pc {i : Instr} {s t : State} (hdone : Completed i s t) (hrun : s.runState = .running)
    (hhalted : t.runState = .halted) : t.pc = s.pc + BitVec.ofNat 9 1 := by
  rcases hdone.runState with ⟨rfl, -⟩ | ⟨-, hkeep⟩
  · exact hdone.pc
  · cases (hkeep.trans hrun).symm.trans hhalted

theorem State.Inv.completed {i : Instr} {s t : State} (h : s.Inv) (hrun : s.runState = .running)
    (hpc : s.pc.toNat ≤ 253) (hdone : Completed i s t) : t.Inv where
  memory := hdone.mem_wf h.memory
  pcRange := by
    rw [hdone.pc]
    exact toNat_pc_add_width_le hpc _
  statusClear := fun _ => by
    rw [hdone.faultCode, hdone.faultInfo]
    exact h.statusClear (by simp [hrun])
  statusLegal := fun hfaulted => absurd hfaulted (hdone.not_faulted (by simp [hrun]))
  haltedPc := fun hhalted => by
    rw [hdone.halted_pc hrun hhalted, toNat_pc_add_width hpc (by decide)]
    omega
  diagUnknown := by
    rw [hdone.diag]
    exact h.diagUnknown

/-- The skip of an unknown opcode reports it at its address, at most 253. -/
theorem State.Inv.skip {s : State} (h : s.Inv) (hrun : s.runState = .running) (hpc : s.pc.toNat ≤ 253) {op : Byte}
    (hkind : kindOf op = .unknown) : ((s.emitDiag op (s.pc.setWidth 8)).advance (opWidth op)).Inv where
  memory := h.memory
  pcRange := toNat_pc_add_width_le hpc op
  statusClear := h.statusClear
  statusLegal := h.statusLegal
  haltedPc := fun hhalted => by cases hrun.symm.trans hhalted
  diagUnknown := fun d hd => by
    rcases List.mem_append.1 hd with hd | hd
    · exact h.diagUnknown d hd
    · cases List.mem_singleton.1 hd
      refine ⟨hkind, ?_⟩
      rw [BitVec.toNat_setWidth]
      omega

/-! ### Steps and runs -/

theorem State.Inv.step {s t : State} (h : s.Inv) (hstep : Machine.step s = .next t) : t.Inv := by
  rcases step_cases hstep with ⟨-, rfl⟩ | ⟨-, -, rfl⟩ | ⟨l, i, u, hrun, hpc, -, -, hu, rfl⟩ |
    ⟨l, op, hrun, hpc, -, hdec, rfl⟩
  · exact h
  · exact (h.enterFault (fetchTrap_statusLegal h.pcRange)).dropLatch
  · rcases exec_next hu with ⟨trap, htrap, -, rfl⟩ | hdone
    · exact ((h.setLatch l).enterFault (Trap.statusLegal_of_ofInstr htrap)).dropLatch
    · exact ((h.setLatch l).completed hrun hpc hdone).dropLatch
  · obtain ⟨hkind, rfl⟩ := decode_eq_unknown.1 hdec
    exact ((h.setLatch l).skip hrun hpc hkind).dropLatch

theorem State.Inv.run {n : Nat} {s t : State} (h : s.Inv) (hrun : Host.Core.run Sys2Proof.core n s = .next t) :
    t.Inv := by
  induction n generalizing s with
  | zero =>
    cases hrun
    exact h
  | succ n ih =>
    obtain ⟨u, hstep⟩ := step_total s
    exact ih (h.step hstep) ((run_succ_of_step hstep n).symm.trans hrun)

/-! ### The statements -/

/-- Settles O43: a fault enters a status of R160's table, and what completes moves pc by a width of at most 4 from at
most 253. -/
theorem everyStepKeepsTheInvariant : Obligations.EveryStepKeepsTheInvariant :=
  fun _ _ h hstep => h.step hstep

/-- Settles O44: an image changes only the memory of the reset state, which stays canonical. -/
theorem resetMeetsTheInvariant : Obligations.ResetMeetsTheInvariant := by
  have hboot (image : List Byte) : (State.boot image).Inv :=
    ⟨Memory.wf_loadImage image, Nat.zero_le _, fun _ => ⟨rfl, rfl⟩, nofun, nofun, nofun⟩
  exact ⟨hboot [], hboot⟩

/-- Settles O46: the final state meets the invariant, which says both of a Halted core. -/
theorem normalEndsShowNoFault : Obligations.NormalEndsShowNoFault := by
  rintro n s t h ⟨⟨hrun, -⟩, hhalted⟩
  have ht := h.run hrun
  obtain ⟨hcode, hinfo⟩ := ht.statusClear (by simp [hhalted])
  exact ⟨congrArg FaultCode.code hcode, hinfo, ht.haltedPc hhalted⟩

end Sys2Proof.Machine

namespace Sys2Proof.Machine

/-! PROOFS. The reset pin and the load port (70_reset_and_hazards.md R180, R186, R193): one edge in reset, one edge out
of it, and the edges that load an image. -/

/-! ### Single edges -/

theorem System.tick_of_rst {sys : System} {inp : Inputs} (hrst : inp.rst = true) :
    sys.tick inp = .next ⟨sys.inReset inp, true⟩ := by
  rw [System.tick, if_pos hrst]

theorem System.tick_of_step {sys : System} {inp : Inputs} {t : State} (hrst : inp.rst = false)
    (hstep : step sys.core = .next t) : sys.tick inp = .next ⟨t, false⟩ := by
  simp [System.tick, hrst, hstep]

/-- Entering reset clears memory, and a strobe on that edge is honoured or not (R180; log 7). -/
theorem System.memInReset_entering {sys : System} (hseen : sys.rstSeen = false) (inp : Inputs) :
    sys.memInReset inp = [] ∨
      (inp.ldWe = true ∧ sys.memInReset inp = Memory.write [] inp.ldAddr.toNat inp.ldData) := by
  rw [System.memInReset, hseen]
  by_cases hstrobe : (inp.ldWe && (false || Config.loadOnRisingEdge)) = true
  · exact .inr ⟨(Bool.and_eq_true_iff.1 hstrobe).1, if_pos hstrobe⟩
  · exact .inl (if_neg hstrobe)

/-- While reset lasts, memory changes by the strobe only (R180). -/
theorem System.memInReset_lasting {sys : System} (hseen : sys.rstSeen = true) (inp : Inputs) :
    sys.memInReset inp =
      if inp.ldWe then sys.core.mem.write inp.ldAddr.toNat inp.ldData else sys.core.mem := by
  simp [System.memInReset, hseen]

/-! ### The edges that load an image (R186) -/

/-- The core in reset, with this memory and this count of free values. -/
def State.resetWith (m : Memory) (draws : Nat) : State := { State.reset with mem := m, draws := draws }

/-- The edge that asserts reset, from any state of the core. -/
theorem System.tick_holdReset {sys : System} (hseen : sys.rstSeen = false) :
    sys.tick Inputs.holdReset = .next ⟨State.resetWith [] sys.core.draws, true⟩ := by
  rw [System.tick_of_rst rfl, System.inReset]
  rcases System.memInReset_entering hseen Inputs.holdReset with hmem | ⟨hwe, -⟩
  · rw [hmem]
    rfl
  · cases hwe

/-- An edge that loads one byte while reset lasts. -/
theorem System.tick_load (m : Memory) (draws : Nat) (addr data : Byte) :
    System.tick ⟨State.resetWith m draws, true⟩ (Inputs.load addr data) =
      .next ⟨State.resetWith (m.write addr.toNat data) draws, true⟩ := by
  rw [System.tick_of_rst rfl, System.inReset, System.memInReset_lasting rfl]
  rfl

theorem System.ticks_cons {sys sys' : System} {inp : Inputs} (h : sys.tick inp = .next sys') (rest : List Inputs) :
    sys.ticks (inp :: rest) = sys'.ticks rest := by
  rw [System.ticks, h]

/-- Loading bytes at ascending addresses, none above 255, writes them there in order. -/
theorem System.ticks_loads (m : Memory) (draws a : Nat) (image : List Byte) (h : a + image.length ≤ 256) :
    System.ticks ⟨State.resetWith m draws, true⟩
        ((image.zipIdx a).map fun p => Inputs.load (BitVec.ofNat 8 p.2) p.1) =
      .next ⟨State.resetWith (m.writeFrom a image) draws, true⟩ := by
  induction image generalizing m a with
  | nil => rfl
  | cons b bs ih =>
    rw [List.length_cons] at h
    have haddr : (BitVec.ofNat 8 a).toNat = a := Nat.mod_eq_of_lt (by omega)
    have htick := System.tick_load m draws (BitVec.ofNat 8 a) b
    rw [haddr] at htick
    rw [List.zipIdx_cons, List.map_cons, System.ticks_cons htick]
    exact ih (m.write a b) (a + 1) (by omega)

/-- Asserting reset and loading an image leaves the state in which its program starts. -/
theorem System.ticks_loadSequence {sys : System} {image : List Byte} (hlen : image.length ≤ 256)
    (hseen : sys.rstSeen = false) : sys.ticks (loadSequence image) =
      .next ⟨{ State.boot image with draws := sys.core.draws }, true⟩ := by
  rw [loadSequence, System.ticks_cons (System.tick_holdReset hseen), System.ticks_loads _ _ _ _ (by omega)]
  rw [State.boot, loadImage, List.take_of_length_le hlen]
  rfl

/-! ### The statements -/

/-- Settles O3: reset clears memory whatever it was, and the loads then write the image into it. -/
theorem loadSequenceStartsTheProgram : Obligations.LoadSequenceStartsTheProgram :=
  fun _ _ hlen hseen => ⟨_, System.ticks_loadSequence hlen hseen, rfl,
    fun _ hstep => System.tick_of_step (sys := ⟨_, true⟩) rfl hstep⟩

/-- Settles O2: every field but memory comes from the reset state, and memory is empty or the old one, with at most one
byte written. -/
theorem resetRestoresFromAnyState : Obligations.ResetRestoresFromAnyState := by
  intro sys inp hrst
  refine ⟨_, System.tick_of_rst hrst, rfl, rfl, fun hseen a ha => ?_, fun hseen _ => ?_, fun hseen a => ?_⟩
  · rcases System.memInReset_entering hseen inp with hmem | ⟨hwe, hmem⟩ <;> simp only [System.inReset, hmem]
    · rfl
    · exact Memory.read_write_other _ _ (ha hwe).symm
  · rcases System.memInReset_entering hseen inp with hmem | ⟨-, hmem⟩ <;> simp only [System.inReset, hmem]
    · exact .inl rfl
    · exact .inr (Memory.read_write_same _ _ _)
  · simp only [System.inReset, System.memInReset_lasting hseen]
    cases inp.ldWe
    · simp
    · simp [Memory.read_write, eq_comm]

/-- Settles O4: with `rst` at 0 an edge looks at no other input. -/
theorem loadPortIgnoredWhileRunning : Obligations.LoadPortIgnoredWhileRunning :=
  fun _ _ _ hrst hstep => System.tick_of_step hrst hstep

end Sys2Proof.Machine

namespace Sys2Proof

/-! PROOFS. What an instruction and a step leave unchanged (10_state.md R20, R33, R34; 20_memory.md R42, R44, R53;
70_reset_and_hazards.md R184): registers, memory and the ports, what the next fetch reads; and that the bytes a
canonical memory holds decide its list (log 9). -/

/-- The registers an instruction may write: its destination, and R7 for POP and PUSH (10_state.md R20, R22). -/
def Instr.destinations : Instr → List Nat
  | .prn _ | .hlt => []
  | .push _ => [7]
  | .pop a => [a.toNat, 7]
  | .ldi a _ | .add a _ | .sub a _ | .mul a _ | .div a _ => [a.toNat]

end Sys2Proof

namespace Sys2Proof.Machine

/-! ### Registers (R20, R22) -/

/-- An operand check leaves a register as it was if what follows the check does. -/
theorem getElem_of_withRegister {a : Byte} {s t : State} {f : Fin 8 → State} {r : Fin 8}
    (h : withRegister a s (fun i => .next (f i)) = .next t)
    (hf : ∀ ha : a.toNat < 8, (f ⟨a.toNat, ha⟩).regs[r.val] = s.regs[r.val]) : t.regs[r.val] = s.regs[r.val] := by
  rcases withRegister_next h with ⟨ha, hnext⟩ | ⟨-, rfl⟩
  · cases hnext
    exact hf ha
  · rfl

theorem getElem_aluInstr_other {p : AluOp} {a b : Byte} {s t : State} (h : exec (p.instr a b) s = .next t) {r : Fin 8}
    (hr : r.val ≠ a.toNat) : t.regs[r.val] = s.regs[r.val] := by
  rcases exec_aluInstr_next h with ⟨trap, rfl⟩ | ⟨ha, v, rfl⟩
  · rfl
  · exact Vector.getElem_set_ne ha _ hr.symm

/-- A register that is no destination of an instruction keeps its value. -/
theorem getElem_of_not_destination {i : Instr} {s t : State} (h : exec i s = .next t) {r : Fin 8}
    (hr : r.val ∉ i.destinations) : t.regs[r.val] = s.regs[r.val] := by
  cases i with
  | hlt =>
    cases h
    rfl
  | prn a => exact getElem_of_withRegister h fun _ => rfl
  | ldi a imm =>
    exact getElem_of_withRegister h fun ha => Vector.getElem_set_ne ha _ (List.ne_of_not_mem_cons hr).symm
  | pop a =>
    obtain ⟨hdest, hsp⟩ : r.val ≠ a.toNat ∧ r.val ≠ 7 := by simpa [Instr.destinations] using hr
    exact getElem_of_withRegister h fun ha =>
      (Vector.getElem_set_ne (by decide) _ hsp.symm).trans (Vector.getElem_set_ne ha _ hdest.symm)
  | push a =>
    exact getElem_of_withRegister h fun _ =>
      Vector.getElem_set_ne (by decide) _ (List.ne_of_not_mem_cons hr).symm
  | add a b => exact getElem_aluInstr_other (p := .add) h (List.ne_of_not_mem_cons hr)
  | sub a b => exact getElem_aluInstr_other (p := .sub) h (List.ne_of_not_mem_cons hr)
  | mul a b => exact getElem_aluInstr_other (p := .mul) h (List.ne_of_not_mem_cons hr)
  | div a b => exact getElem_aluInstr_other (p := .div) h (List.ne_of_not_mem_cons hr)

/-! ### Memory (R42, R44) -/

/-- A completed PUSH writes at SP - 1 only. -/
theorem Completed.read_other {i : Instr} {s t : State} (hdone : Completed i s t) {x : Nat}
    (hx : x ≠ (s.regs[7] - 1).toNat) : t.mem.read x = s.mem.read x := by
  rcases hdone.mem with ⟨-, hmem⟩ | ⟨a, ha, -, hmem⟩ <;> rw [hmem]
  exact Memory.read_write_other _ _ hx.symm

/-- A completed instruction that is no PUSH leaves memory as it is. -/
theorem Completed.mem_of_not_push {i : Instr} {s t : State} (hdone : Completed i s t) (hi : ∀ a, i ≠ .push a) :
    t.mem = s.mem := by
  rcases hdone.mem with ⟨-, hmem⟩ | ⟨a, -, rfl, -⟩
  · exact hmem
  · exact absurd rfl (hi a)

/-! ### Canonical memories (log 9) -/

/-- A cell reads 0 below every address that is listed. -/
theorem Memory.read_of_lt {m : Memory} {a : Nat} (h : ∀ c ∈ m, a < c.1) : m.read a = 0 := by
  induction m with
  | nil => rfl
  | cons c m ih =>
    obtain ⟨hlt, htail⟩ := List.forall_mem_cons.1 h
    rw [Memory.read_cons, if_neg (Nat.ne_of_gt hlt), ih htail]

theorem Memory.wf_cons {k : Nat} {v : Byte} {m : Memory} (h : Memory.wf ((k, v) :: m)) :
    v ≠ 0 ∧ (∀ c ∈ m, k < c.1) ∧ m.wf := by
  obtain ⟨hsorted, hcells⟩ := h
  obtain ⟨hk, hsorted⟩ := List.pairwise_cons.1 hsorted
  obtain ⟨⟨hv, -⟩, hcells⟩ := List.forall_mem_cons.1 hcells
  exact ⟨hv, hk, hsorted, hcells⟩

/-- The first listed cell of a canonical memory does not read 0. -/
theorem Memory.read_head_ne_zero {k : Nat} {v : Byte} {m : Memory} (h : Memory.wf ((k, v) :: m)) :
    Memory.read ((k, v) :: m) k ≠ 0 := by
  rw [Memory.read_cons, if_pos rfl]
  exact (Memory.wf_cons h).1

/-- The first listed address of a canonical memory is the first that does not read 0. -/
theorem Memory.le_of_read_eq {k j : Nat} {v w : Byte} {m n : Memory} (hm : Memory.wf ((k, v) :: m))
    (hn : Memory.wf ((j, w) :: n)) (h : Memory.read ((k, v) :: m) k = Memory.read ((j, w) :: n) k) : j ≤ k := by
  obtain ⟨-, hj, -⟩ := Memory.wf_cons hn
  by_contra hlt
  have hlt := Nat.lt_of_not_le hlt
  have hzero : Memory.read ((j, w) :: n) k = 0 :=
    Memory.read_of_lt (List.forall_mem_cons.2 ⟨hlt, fun c hc => hlt.trans (hj c hc)⟩)
  exact Memory.read_head_ne_zero hm (h.trans hzero)

/-- The bytes that the cells of a canonical memory hold decide its list. -/
theorem Memory.eq_of_read_eq {m n : Memory} (hm : m.wf) (hn : n.wf) (h : ∀ a, m.read a = n.read a) : m = n := by
  induction m generalizing n with
  | nil =>
    cases n with
    | nil => rfl
    | cons d n => exact absurd (h d.1).symm (Memory.read_head_ne_zero hn)
  | cons c m ih =>
    obtain ⟨k, v⟩ := c
    cases n with
    | nil => exact absurd (h k) (Memory.read_head_ne_zero hm)
    | cons d n =>
      obtain ⟨j, w⟩ := d
      obtain rfl : k = j := Nat.le_antisymm (Memory.le_of_read_eq hn hm (h j).symm) (Memory.le_of_read_eq hm hn (h k))
      obtain rfl : v = w := by simpa using h k
      obtain ⟨-, hk, hm⟩ := Memory.wf_cons hm
      obtain ⟨-, hj, hn⟩ := Memory.wf_cons hn
      refine congrArg _ (ih hm hn fun a => ?_)
      rcases Nat.lt_or_ge k a with ha | ha
      · simpa [Nat.ne_of_lt ha] using h a
      · rw [Memory.read_of_lt fun c hc => Nat.lt_of_le_of_lt ha (hk c hc),
          Memory.read_of_lt fun c hc => Nat.lt_of_le_of_lt ha (hj c hc)]

/-! ### Output and pulses (R33, R184) -/

/-- A completed instruction that is no PRN leaves the output as it is. -/
theorem Completed.out_of_not_prn {i : Instr} {s t : State} (hdone : Completed i s t) (hi : ∀ a, i ≠ .prn a) :
    t.out = s.out := by
  rcases hdone.out with ⟨-, hout⟩ | ⟨a, -, rfl, -⟩
  · exact hout
  · exact absurd rfl (hi a)

theorem outPulse_of_eq {s t : State} (h : t.out = s.out) : outPulse s t = none := by
  simp [outPulse, h]

theorem diagPulse_of_eq {s t : State} (h : t.diag = s.diag) : diagPulse s t = none := by
  simp [diagPulse, h]

/-- A step that faults leaves both sequences as they were. -/
theorem ports_of_step_faulted {s t : State} (hrun : s.runState = .running) (hstep : step s = .next t)
    (hfaulted : t.runState = .faulted) : t.out = s.out ∧ t.diag = s.diag := by
  obtain ⟨trap, htrap⟩ := Option.isSome_iff_exists.1 ((step_faulted_iff hrun hstep).1 hfaulted)
  obtain ⟨l, hfault⟩ := step_of_firstFault hrun htrap
  cases hfault.symm.trans hstep
  exact ⟨rfl, rfl⟩

/-! ### The statements -/

/-- Settles O34: the next fetch reads the written memory at the moved pc. -/
theorem pushIsSeenByTheNextFetch : Obligations.PushIsSeenByTheNextFetch := by
  intro s t l l' a ha hrun hfetch hdec hstep hnext addr seen
  obtain ⟨u, hu, rfl⟩ := step_of_instr hrun hfetch hstep hdec
  cases (exec_push_of_lt ha (s.setLatch l)).symm.trans hu
  obtain ⟨hpc, -⟩ := fetch_eq_ok.1 hfetch
  obtain ⟨-, rfl⟩ := fetch_eq_ok.1 hnext
  have hread (x : Nat) : (s.mem.write addr (s.regs.set 7 (s.regs[7] - 1))[a.toNat]).read x = seen x := by
    rw [Memory.read_write]
    exact if_congr eq_comm rfl rfl
  have hmoved : (s.pc + 2).toNat = s.pc.toNat + 2 := toNat_pc_add_width hpc (by decide)
  simp only [State.dropLatch_pc, State.dropLatch_mem, State.setLatch_pc, State.setLatch_mem, State.setLatch_regs,
    hmoved]
  simp only [← hread]
  rfl

/-- Settles O35: the registers listed for each instruction are its destinations. -/
theorem onlyDestinationRegistersChange : Obligations.OnlyDestinationRegistersChange := by
  intro a b s t p hp h r hr
  have hdest : p.2 = p.1.destinations := by
    simp only [List.mem_cons, List.not_mem_nil, or_false] at hp
    rcases hp with rfl | rfl | rfl | rfl | rfl | rfl | rfl | rfl | rfl <;> rfl
  exact getElem_of_not_destination h (hdest ▸ hr)

/-- Settles O36: a fault writes the run state and the fault status only, and the rest is what completion leaves. -/
theorem instructionsChangeNothingElse : Obligations.InstructionsChangeNothingElse := by
  intro i s t h
  rcases exec_next h with ⟨trap, -, -, rfl⟩ | hdone
  · exact ⟨rfl, rfl, rfl, fun _ _ => rfl, fun _ _ _ => rfl, fun _ => rfl, .inr (.inl rfl), .inr rfl⟩
  · refine ⟨hdone.diag, hdone.latch, hdone.draws, fun hi x => ?_, fun _ x hx => hdone.read_other hx,
      hdone.out_of_not_prn, ?_, .inl ⟨hdone.faultCode, hdone.faultInfo⟩⟩
    · rw [hdone.mem_of_not_push hi]
    · exact hdone.runState.elim (fun hhalt => .inr (.inr hhalt)) fun hkeep => .inl hkeep.2

/-- Settles O37: of all a step can do, only the completion of a PUSH touches memory. -/
theorem onlyPushWritesMemory : Obligations.OnlyPushWritesMemory := by
  intro s t hstep
  rcases step_cases hstep with ⟨-, rfl⟩ | ⟨-, -, rfl⟩ | ⟨l, i, u, hrun, -, hfetch, hdec, hu, rfl⟩ |
    ⟨l, op, -, -, -, -, rfl⟩
  · exact .inl rfl
  · exact .inl rfl
  · rcases exec_next hu with ⟨trap, -, -, rfl⟩ | hdone
    · exact .inl rfl
    · rcases hdone.mem with ⟨-, hmem⟩ | ⟨a, ha, rfl, -⟩
      · exact .inl hmem
      · exact .inr ⟨l, a, hrun, hfetch, hdec, ha, fun x hx => hdone.read_other hx⟩
  · exact .inl rfl

/-- Settles O42, by induction on both lists: their first cells are the first that do not read 0. -/
theorem canonicalMemoriesThatReadAlikeAreEqual : Obligations.CanonicalMemoriesThatReadAlikeAreEqual :=
  fun _ _ => Memory.eq_of_read_eq

/-- Settles O48: a pulse is there only where a sequence grew, which is in a PRN or a skip, and then shows what that
appended. -/
theorem pulsesOnlyInStepsThatComplete : Obligations.PulsesOnlyInStepsThatComplete := by
  intro s t hrun hstep
  obtain ⟨hprn, hout⟩ := onlyPrnAppendsToTheOutput.2 s t hstep
  obtain ⟨hskip, hdiag⟩ := onlyUnknownOpcodesAreReported.2 s t hstep
  refine ⟨fun hfaulted => ?_, fun v hv => ?_, fun d hd => ?_⟩
  · obtain ⟨hout, hdiag⟩ := ports_of_step_faulted hrun hstep hfaulted
    exact ⟨outPulse_of_eq hout, diagPulse_of_eq hdiag⟩
  · rcases hout with hkeep | ⟨l, a, -, hfetch, hdec, ha⟩
    · cases (outPulse_of_eq hkeep).symm.trans hv
    · have happend := hprn l a ha hrun hfetch hdec
      cases (outPulse_of_append happend).symm.trans hv
      exact ⟨happend, l, a, hfetch, hdec⟩
  · rcases hdiag with hkeep | ⟨-, hpc, hkind⟩
    · cases (diagPulse_of_eq hkeep).symm.trans hd
    · have happend := hskip hrun hpc hkind
      cases (diagPulse_of_append happend).symm.trans hd
      exact ⟨happend, _, fetch_of_le hpc, decode_eq_unknown.2 ⟨hkind, rfl⟩⟩

end Sys2Proof.Machine

namespace Sys2Proof.Machine

/-! PROOFS. The assembly text (00_scope.md R10; 30_encoding.md R72): words, which are letters and digits, put together
with blanks and commas, and read back by the pieces between them. -/

/-! ### Words -/

/-- Letters and digits, at least one: what mnemonics and operands are written in. -/
structure IsWord (cs : List Char) : Prop where
  ne_nil   : cs ≠ []
  alphanum : ∀ c ∈ cs, c.isAlphanum = true

/-- A text that neither begins nor ends with a separator. -/
structure WordEnds (cs : List Char) : Prop where
  first : ∃ c, cs.head? = some c ∧ c.isAlphanum = true
  last  : ∃ c, cs.getLast? = some c ∧ c.isAlphanum = true

theorem ne_of_isAlphanum {c sep : Char} (hc : c.isAlphanum = true) (hsep : sep.isAlphanum = false) : c ≠ sep := by
  rintro rfl
  cases hc.symm.trans hsep

theorem isBlank_of_isAlphanum {c : Char} (hc : c.isAlphanum = true) : isBlank c = false := by
  have hspace : c ≠ ' ' := ne_of_isAlphanum hc (by decide)
  have htab : c ≠ '\t' := ne_of_isAlphanum hc (by decide)
  have hreturn : c ≠ '\r' := ne_of_isAlphanum hc (by decide)
  simp [isBlank, hspace, htab, hreturn]

theorem IsWord.wordEnds {cs : List Char} (h : IsWord cs) : WordEnds cs :=
  ⟨⟨_, List.head?_eq_some_head h.ne_nil, h.alphanum _ (List.head_mem h.ne_nil)⟩,
    ⟨_, List.getLast?_eq_some_getLast h.ne_nil, h.alphanum _ (List.getLast_mem h.ne_nil)⟩⟩

theorem WordEnds.ne_nil {cs : List Char} (h : WordEnds cs) : cs ≠ [] := by
  rintro rfl
  obtain ⟨c, hc, -⟩ := h.first
  cases hc

/-- Whatever stands between them, two texts that end in words make one. -/
theorem WordEnds.append {cs ds : List Char} (hcs : WordEnds cs) (hds : WordEnds ds) (mid : List Char) :
    WordEnds (cs ++ mid ++ ds) := by
  refine ⟨?_, ?_⟩
  · rw [List.append_assoc, List.head?_append_of_ne_nil _ hcs.ne_nil]
    exact hcs.first
  · rw [List.getLast?_append_of_ne_nil _ hds.ne_nil]
    exact hds.last

theorem dropWhile_isBlank_eq_self {cs : List Char} (h : ∃ c, cs.head? = some c ∧ c.isAlphanum = true) :
    cs.dropWhile isBlank = cs := by
  obtain ⟨c, hhead, hc⟩ := h
  obtain ⟨rest, rfl⟩ := List.head?_eq_some_iff.1 hhead
  exact List.dropWhile_cons_of_neg (by simp [isBlank_of_isAlphanum hc])

theorem trimBlank_of_wordEnds {cs : List Char} (h : WordEnds cs) : trimBlank cs = cs := by
  have hback : cs.reverse.dropWhile isBlank = cs.reverse :=
    dropWhile_isBlank_eq_self (by simpa using h.last)
  rw [trimBlank, dropWhile_isBlank_eq_self h.first, hback, List.reverse_reverse]

/-! ### Pieces between separators -/

theorem splitAtChar_ne_nil (sep : Char) (cs : List Char) : splitAtChar sep cs ≠ [] := by
  cases cs with
  | nil => simp [splitAtChar]
  | cons c cs =>
    rw [splitAtChar]
    split
    · simp
    · split <;> simp

theorem splitAtChar_of_forall_ne {sep : Char} {cs : List Char} (h : ∀ c ∈ cs, c ≠ sep) :
    splitAtChar sep cs = [cs] := by
  induction cs with
  | nil => rfl
  | cons c cs ih =>
    obtain ⟨hc, hcs⟩ := List.forall_mem_cons.1 h
    simp [splitAtChar, ih hcs, hc]

theorem splitAtChar_append {sep : Char} {cs : List Char} (h : ∀ c ∈ cs, c ≠ sep) (ds : List Char) :
    splitAtChar sep (cs ++ sep :: ds) = cs :: splitAtChar sep ds := by
  induction cs with
  | nil =>
    obtain ⟨p, ps, hps⟩ := List.exists_cons_of_ne_nil (splitAtChar_ne_nil sep ds)
    simp [splitAtChar, hps]
  | cons c cs ih =>
    obtain ⟨hc, hcs⟩ := List.forall_mem_cons.1 h
    simp [splitAtChar, ih hcs, hc]

/-- Words joined by commas are the pieces between the commas. -/
theorem splitAtChar_intercalate {ps : List (List Char)} (hne : ps ≠ []) (hps : ∀ p ∈ ps, IsWord p) :
    splitAtChar ',' ([','].intercalate ps) = ps := by
  have hcomma {p : List Char} (hp : IsWord p) : ∀ c ∈ p, c ≠ ',' :=
    fun c hc => ne_of_isAlphanum (hp.alphanum c hc) (by decide)
  induction ps with
  | nil => exact absurd rfl hne
  | cons p ps ih =>
    obtain ⟨hp, hps⟩ := List.forall_mem_cons.1 hps
    cases ps with
    | nil =>
      rw [List.intercalate_singleton]
      exact splitAtChar_of_forall_ne (hcomma hp)
    | cons q qs =>
      rw [List.intercalate_cons_cons, List.append_assoc, List.singleton_append, splitAtChar_append (hcomma hp),
        ih (List.cons_ne_nil _ _) hps]

theorem wordEnds_intercalate {ps : List (List Char)} (hne : ps ≠ []) (hps : ∀ p ∈ ps, IsWord p) :
    WordEnds ([','].intercalate ps) := by
  induction ps with
  | nil => exact absurd rfl hne
  | cons p ps ih =>
    obtain ⟨hp, hps⟩ := List.forall_mem_cons.1 hps
    cases ps with
    | nil =>
      rw [List.intercalate_singleton]
      exact hp.wordEnds
    | cons q qs =>
      rw [List.intercalate_cons_cons]
      exact hp.wordEnds.append (ih (List.cons_ne_nil _ _) hps) [',']

theorem mem_intercalate_comma {ps : List (List Char)} (hps : ∀ p ∈ ps, IsWord p) {c : Char}
    (hc : c ∈ [','].intercalate ps) : c.isAlphanum = true ∨ c = ',' := by
  induction ps with
  | nil => cases hc
  | cons p ps ih =>
    obtain ⟨hp, hps⟩ := List.forall_mem_cons.1 hps
    cases ps with
    | nil =>
      rw [List.intercalate_singleton] at hc
      exact .inl (hp.alphanum c hc)
    | cons q qs =>
      rw [List.intercalate_cons_cons, List.mem_append, List.mem_append, List.mem_singleton] at hc
      rcases hc with (hc | hc) | hc
      · exact .inl (hp.alphanum c hc)
      · exact .inr hc
      · exact ih hps hc

/-! ### Numbers and registers -/

theorem isWord_toDigits (n : Nat) : IsWord (Nat.toDigits 10 n) := by
  refine ⟨Nat.toDigits_ne_nil, fun c hc => ?_⟩
  have hdigit := Nat.isDigit_of_mem_toDigits (by decide) (by decide) hc
  simp [Char.isAlphanum, hdigit]

theorem isWord_regText (a : Byte) : IsWord (regText a) :=
  ⟨List.cons_ne_nil _ _, List.forall_mem_cons.2 ⟨by decide, (isWord_toDigits _).alphanum⟩⟩

theorem parseReg_regText {a : Byte} (ha : isRegIndex a = true) : parseReg (regText a) = some a := by
  have hlt : a.toNat < 8 := regTrap?_eq_none.1 (isRegIndex_eq_true.1 ha)
  have hdigit : ∀ d < 8, "01234567".toList.idxOf? (Nat.digitChar d) = some d := by decide
  rw [regText, Nat.toDigits_of_lt_base (Nat.lt_of_lt_of_le hlt (by decide)), parseReg, hdigit _ hlt]
  simp

/-- A decimal immediate is read as its number, whatever digits it begins with. -/
theorem parseImm_toDigits (v : Byte) : parseImm (Nat.toDigits 10 v.toNat) = some v := by
  have hdigits {c : Char} (hc : c ∈ Nat.toDigits 10 v.toNat) : c.isDigit = true :=
    Nat.isDigit_of_mem_toDigits (by decide) (by decide) hc
  have hle : v.toNat ≤ 255 := Nat.le_of_lt_succ v.isLt
  unfold parseImm
  split
  · rename_i ds heq
    cases hdigits (c := 'x') (by simp [heq])
  · rename_i ds heq
    cases hdigits (c := 'b') (by simp [heq])
  · rw [digitsValue_toDigits, Option.bind_some, if_pos hle, BitVec.ofNat_toNat, BitVec.setWidth_eq]

/-! ### An instruction as text -/

/-- The mnemonic of an instruction. -/
def mnemonicText : Instr → List Char
  | .ldi _ _ => ['L', 'D', 'I']
  | .prn _   => ['P', 'R', 'N']
  | .hlt     => ['H', 'L', 'T']
  | .pop _   => ['P', 'O', 'P']
  | .push _  => ['P', 'U', 'S', 'H']
  | .add _ _ => ['A', 'D', 'D']
  | .sub _ _ => ['S', 'U', 'B']
  | .mul _ _ => ['M', 'U', 'L']
  | .div _ _ => ['D', 'I', 'V']

/-- The operands of an instruction, as written. -/
def operandTexts : Instr → List (List Char)
  | .hlt => []
  | .ldi a imm => [regText a, Nat.toDigits 10 imm.toNat]
  | .prn a | .pop a | .push a => [regText a]
  | .add a b | .sub a b | .mul a b | .div a b => [regText a, regText b]

/-! `asmText` is opened by `delta`: its equation lemmas, with their string literals, take long to derive. -/

theorem asmText_hlt : asmText .hlt = mnemonicText .hlt := by
  delta asmText
  simp [mnemonicText]

theorem asmText_eq {i : Instr} (hops : operandTexts i ≠ []) :
    asmText i = mnemonicText i ++ [' '] ++ [','].intercalate (operandTexts i) := by
  cases i with
  | hlt => exact absurd rfl hops
  | _ =>
    delta asmText
    simp [mnemonicText, operandTexts]

theorem isWord_mnemonicText (i : Instr) : IsWord (mnemonicText i) := by
  cases i <;> exact ⟨by simp [mnemonicText], by simp [mnemonicText]⟩

theorem not_isBlank_of_mem_mnemonicText (i : Instr) : ∀ c ∈ mnemonicText i, (!isBlank c) = true := by
  intro c hc
  rw [isBlank_of_isAlphanum ((isWord_mnemonicText i).alphanum c hc), Bool.not_false]

theorem isWord_of_mem_operandTexts {i : Instr} : ∀ p ∈ operandTexts i, IsWord p := by
  cases i with
  | hlt => simp [operandTexts]
  | prn a | pop a | push a => simp [operandTexts, isWord_regText]
  | ldi a imm => simp [operandTexts, isWord_regText, isWord_toDigits]
  | add a b | sub a b | mul a b | div a b => simp [operandTexts, isWord_regText]

theorem operandTexts_eq_nil {i : Instr} (h : operandTexts i = []) : i = .hlt := by
  cases i with
  | hlt => rfl
  | _ => cases h

theorem wordEnds_asmText (i : Instr) : WordEnds (asmText i) := by
  by_cases hops : operandTexts i = []
  · obtain rfl := operandTexts_eq_nil hops
    rw [asmText_hlt]
    exact (isWord_mnemonicText .hlt).wordEnds
  · rw [asmText_eq hops]
    exact (isWord_mnemonicText i).wordEnds.append (wordEnds_intercalate hops isWord_of_mem_operandTexts) [' ']

theorem mem_asmText {i : Instr} {c : Char} (hc : c ∈ asmText i) : c.isAlphanum = true ∨ c = ' ' ∨ c = ',' := by
  by_cases hops : operandTexts i = []
  · obtain rfl := operandTexts_eq_nil hops
    rw [asmText_hlt] at hc
    exact .inl ((isWord_mnemonicText .hlt).alphanum c hc)
  · rw [asmText_eq hops, List.mem_append, List.mem_append, List.mem_singleton] at hc
    rcases hc with (hc | hc) | hc
    · exact .inl ((isWord_mnemonicText i).alphanum c hc)
    · exact .inr (.inl hc)
    · exact (mem_intercalate_comma isWord_of_mem_operandTexts hc).imp_right .inr

/-- The characters that end a statement, a label or a line occur in no instruction. -/
theorem ne_of_mem_asmText {i : Instr} {sep : Char} (hsep : sep.isAlphanum = false) (hspace : sep ≠ ' ')
    (hcomma : sep ≠ ',') : ∀ c ∈ asmText i, c ≠ sep := by
  intro c hc
  rcases mem_asmText hc with hc | rfl | rfl
  · exact ne_of_isAlphanum hc hsep
  · exact hspace.symm
  · exact hcomma.symm

/-! ### The text read back -/

/-- The mnemonic of an instruction with operands is what stands before the first blank. -/
theorem takeWhile_asmText {i : Instr} (hops : operandTexts i ≠ []) :
    (asmText i).takeWhile (fun c => !isBlank c) = mnemonicText i := by
  rw [asmText_eq hops, List.append_assoc, List.takeWhile_append_of_pos (not_isBlank_of_mem_mnemonicText i)]
  simp [isBlank]

/-- The operands are what stands after the first blank. -/
theorem trimBlank_dropWhile_asmText {i : Instr} (hops : operandTexts i ≠ []) :
    trimBlank ((asmText i).dropWhile fun c => !isBlank c) = [','].intercalate (operandTexts i) := by
  rw [asmText_eq hops, List.append_assoc, List.dropWhile_append_of_pos (not_isBlank_of_mem_mnemonicText i)]
  exact trimBlank_of_wordEnds (wordEnds_intercalate hops isWord_of_mem_operandTexts)

theorem map_trimBlank_operandTexts (i : Instr) : (operandTexts i).map trimBlank = operandTexts i :=
  (List.map_congr_left fun p hp => trimBlank_of_wordEnds (isWord_of_mem_operandTexts p hp).wordEnds).trans (List.map_id' _)

/-- The mnemonic selects the operands' form, and each operand in range reads back. -/
theorem parseInsn_asmText {i : Instr} (hwf : i.wellFormed = true) : parseInsn (asmText i) = some (.plain i) := by
  by_cases hops : operandTexts i = []
  · obtain rfl := operandTexts_eq_nil hops
    decide
  · rw [parseInsn, takeWhile_asmText hops, trimBlank_dropWhile_asmText hops,
      splitAtChar_intercalate hops isWord_of_mem_operandTexts, map_trimBlank_operandTexts]
    cases i with
    | hlt => exact absurd rfl hops
    | prn a | pop a | push a => simp [mnemonicText, operandTexts, parseOneReg, parseReg_regText hwf]
    | ldi a imm => simp [mnemonicText, operandTexts, parseLdi, parseReg_regText hwf, parseImm_toDigits]
    | add a b | sub a b | mul a b | div a b =>
      obtain ⟨ha, hb⟩ := Bool.and_eq_true_iff.1 hwf
      simp [mnemonicText, operandTexts, parseTwoRegs, parseReg_regText ha, parseReg_regText hb]

theorem parseLine_asmText {i : Instr} (hwf : i.wellFormed = true) :
    parseLine (asmText i) = some [⟨none, some (.plain i)⟩] := by
  have htrim := trimBlank_of_wordEnds (wordEnds_asmText i)
  have hbody : lineBody (asmText i) = asmText i := by
    rw [lineBody, List.takeWhile_eq_self_iff.2, htrim]
    intro c hc
    simpa using ne_of_mem_asmText (sep := '#') (by decide) (by decide) (by decide) c hc
  have hstmt : parseStmt (asmText i) = some ⟨none, some (.plain i)⟩ := by
    rw [parseStmt, splitAtChar_of_forall_ne (ne_of_mem_asmText (by decide) (by decide) (by decide))]
    simp [parseInsn?, htrim, (wordEnds_asmText i).ne_nil, parseInsn_asmText hwf]
  rw [parseLine, hbody, splitAtChar_of_forall_ne (ne_of_mem_asmText (by decide) (by decide) (by decide))]
  simp [hstmt]

/-! ### The statement -/

/-- Settles O10: blanks and commas part the words that the text is made of, and each word reads back. -/
theorem assemblyTextReadsBack : Obligations.AssemblyTextReadsBack := by
  intro i hwf
  refine ⟨parseInsn_asmText hwf, ?_⟩
  have hlen : (encode i).length ≤ Config.memSize := (length_encode_le i).trans (by decide)
  simp [assemble, parseLine_asmText hwf, labelTable, AsmStmt.bytes, hlen]

end Sys2Proof.Machine

namespace Sys2Proof.Machine

/-! PROOFS. The latch and `draws` between steps (10_state.md R28; 40_engine.md R80, R83, R84, R90; log 1): a step and a
run from states that differ in them only end in states that differ in them only. -/

/-! ### Instructions -/

/-- The state with another latch and another count of free values: all that a run's observation leaves out (R90). -/
def State.withUnobserved (s : State) (l : Latch) (d : Nat) : State := { s with latch := l, draws := d }

/-- A result with that change made in its next state. -/
def withUnobservedNext (l : Latch) (d : Nat) : Result → Result
  | .next t    => .next (t.withUnobserved l d)
  | .fault r   => .fault r
  | .refused r => .refused r

section
variable (s : State) (l : Latch) (d : Nat)

theorem withRegister_withUnobserved (a : Byte) {k k' : Fin 8 → Result} (h : ∀ i, k' i = withUnobservedNext l d (k i)) :
    withRegister a (s.withUnobserved l d) k' = withUnobservedNext l d (withRegister a s k) := by
  unfold withRegister
  cases regIndex? a with
  | some i => exact h i
  | none => rfl

theorem withRegisters_withUnobserved (a b : Byte) {k k' : Fin 8 → Fin 8 → Result}
    (h : ∀ i j, k' i j = withUnobservedNext l d (k i j)) :
    withRegisters a b (s.withUnobserved l d) k' = withUnobservedNext l d (withRegisters a b s k) :=
  withRegister_withUnobserved s l d a fun i => withRegister_withUnobserved s l d b (h i)

/-- No instruction reads the latch or `draws`, and none writes them. -/
theorem exec_withUnobserved (i : Instr) :
    exec i (s.withUnobserved l d) = withUnobservedNext l d (exec i s) := by
  cases i with
  | hlt => rfl
  | ldi a | prn a | pop a | push a => exact withRegister_withUnobserved s l d a fun _ => rfl
  | add a b | sub a b | mul a b => exact withRegisters_withUnobserved s l d a b fun _ _ => rfl
  | div a b =>
    refine withRegisters_withUnobserved s l d a b fun _ j => ?_
    by_cases hzero : s.reg j = 0
    · rw [if_pos hzero]
      exact if_pos hzero
    · rw [if_neg hzero]
      exact if_neg hzero

end

/-! ### One step -/

/-- A step of a Running core executes what its fetched bytes decode to. -/
theorem step_of_decode {s : State} {l : Latch} {i : Instr} (hrun : s.runState = .running) (hfetch : fetch s = .ok l)
    (hdec : decode l = .instr i) : step s = finishStep (exec i (s.setLatch l)) := by
  rw [step_of_fetch hrun hfetch, executeLatched, State.setLatch_latch, hdec]

/-- A step does not see the latch it starts with or `draws`; what it leaves in them is not observed either. -/
theorem step_withUnobserved {s t : State} (h : step s = .next t) (l : Latch) (d : Nat) :
    ∃ l' d', step (s.withUnobserved l d) = .next (t.withUnobserved l' d') := by
  rcases step_cases h with ⟨hrun, rfl⟩ | ⟨hrun, hpc, rfl⟩ | ⟨lf, i, u, hrun, -, hfetch, hdec, hu, rfl⟩ |
    ⟨lf, op, hrun, -, hfetch, hdec, rfl⟩
  · exact ⟨l, d, step_of_not_running hrun⟩
  · exact ⟨_, _, (step_of_running (s := s.withUnobserved l d) hrun).trans (runningStep_of_ge hpc)⟩
  · have hexec := (exec_withUnobserved (s.setLatch lf) lf d i).trans (congrArg _ hu)
    exact ⟨_, _, (step_of_decode (s := s.withUnobserved l d) hrun hfetch hdec).trans (congrArg finishStep hexec)⟩
  · obtain ⟨t', ht'⟩ := step_total (s.withUnobserved l d)
    obtain rfl := step_of_unknown (s := s.withUnobserved l d) hrun hfetch ht' hdec
    exact ⟨_, _, ht'⟩

/-! ### Runs -/

/-- Two runs from states that differ in the latch and `draws` only end alike. -/
theorem EndsIn.withUnobserved {n : Nat} {s t : State} (h : EndsIn n s t) (l : Latch) (d : Nat) :
    ∃ l' d', EndsIn n (s.withUnobserved l d) (t.withUnobserved l' d') := by
  obtain ⟨hrun, hend⟩ := h
  induction n generalizing s l d with
  | zero =>
    cases hrun
    exact ⟨l, d, rfl, hend⟩
  | succ n ih =>
    obtain ⟨u, hstep⟩ := step_total s
    obtain ⟨l₁, d₁, hstep'⟩ := step_withUnobserved hstep l d
    obtain ⟨l', d', hrun', hend'⟩ := ih l₁ d₁ ((run_succ_of_step hstep n).symm.trans hrun)
    exact ⟨l', d', (run_succ_of_step hstep' n).trans hrun', hend'⟩

/-! ### The statements -/

/-- Settles O11: the latched bytes are the fetched ones. -/
theorem stepExecutesTheDecodedInstruction : Obligations.StepExecutesTheDecodedInstruction :=
  fun _ _ _ hrun hfetch hdec => step_of_decode hrun hfetch hdec

/-- Settles O17: the fetch overwrites the latch, and a fetch that raises ends the step, which overwrites it too. -/
theorem latchBetweenStepsIsNeverRead : Obligations.LatchBetweenStepsIsNeverRead := by
  intro s l hrun
  have hfetch : fetch { s with latch := l } = fetch s := rfl
  rw [step_of_running (s := { s with latch := l }) hrun, step_of_running hrun, runningStep, runningStep, hfetch]
  cases fetch s <;> rfl

/-- Settles O18: every instruction has a next state, a fault being one. -/
theorem everyStepHasANextState : Obligations.EveryStepHasANextState := step_total

/-- Settles O52, by induction on the number of steps: the runs keep differing in the latch and `draws` only. -/
theorem runsDifferingInTheLatchObserveAlike : Obligations.RunsDifferingInTheLatchObserveAlike := by
  intro n s t l d h
  obtain ⟨l', d', h'⟩ := h.withUnobserved l d
  exact ⟨_, h', State.observe_of_latch_draws t l' d'⟩

end Sys2Proof.Machine
